-- ==== Sys2Proof/Word.lean ====
section
/-! DEFINITION. The machine word and the byte of the character streams (spec/00_scope.md R7, R10). -/

namespace Sys2Proof

/-- A register, memory word or address: 16 bits, bit 0 the least significant (R7, R9, R10). -/
abbrev Word := BitVec 16

/-- A character given to or taken from the I/O collaborator (R38, R39). -/
abbrev Byte := BitVec 8

end Sys2Proof
end

