-- ==== Sys2Proof/Syntax.lean ====
section
/-! DEFINITION. The general registers as names and the instruction set as one inductive, one constructor per row of
spec/opcode_table.json (spec/30_encoding.md R81, R85, R88). -/

namespace Sys2Proof

/-- The eight general registers (spec/10_state.md R20). -/
inductive Reg where
  | r0 | r1 | r2 | r3 | r4 | r5 | r6 | r7
  deriving DecidableEq, Repr

/-- The sixteen opcodes, in the order the source lists them (R84, R85). -/
inductive Opcode where
  | br | add | ld | st | jsr | and | ldr | str | rti | not | ldi | sti | jmp | res | lea | trap
  deriving DecidableEq, Repr

/-- One constructor per row of the opcode table. Operands are the fields of R81 and R82, in the table's order. Ignored bits
(R90) are dropped, except in the three faulting rows, whose fault record holds the whole instruction word (R35): those
keep them as the last thing that tells two words apart (log 10). -/
inductive Instr where
  /-- BR: `mask` is `ir[11:9]` (n, z, p), offset `PCoffset9` (R160). -/
  | br (mask : BitVec 3) (off9 : BitVec 9)
  /-- ADD, register form (R130). -/
  | addReg (dr sr1 sr2 : Reg)
  /-- ADD, immediate form (R131). -/
  | addImm (dr sr1 : Reg) (imm5 : BitVec 5)
  /-- LD (R140). -/
  | ld (dr : Reg) (off9 : BitVec 9)
  /-- ST (R141). -/
  | st (sr : Reg) (off9 : BitVec 9)
  /-- JSR (R163). -/
  | jsr (off11 : BitVec 11)
  /-- JSRR (R164). -/
  | jsrr (base : Reg)
  /-- AND, register form (R132). -/
  | andReg (dr sr1 sr2 : Reg)
  /-- AND, immediate form (R133). -/
  | andImm (dr sr1 : Reg) (imm5 : BitVec 5)
  /-- LDR (R144). -/
  | ldr (dr base : Reg) (off6 : BitVec 6)
  /-- STR (R145). -/
  | str (sr base : Reg) (off6 : BitVec 6)
  /-- RTI (R195); `low12` is the ignored `ir[11:0]`. -/
  | rti (low12 : BitVec 12)
  /-- NOT (R134). -/
  | not (dr sr : Reg)
  /-- LDI (R142). -/
  | ldi (dr : Reg) (off9 : BitVec 9)
  /-- STI (R143). -/
  | sti (sr : Reg) (off9 : BitVec 9)
  /-- JMP; RET is `jmp r7` (R162). -/
  | jmp (base : Reg)
  /-- The reserved opcode (R196); `low12` is the ignored `ir[11:0]`. -/
  | res (low12 : BitVec 12)
  /-- LEA (R146). -/
  | lea (dr : Reg) (off9 : BitVec 9)
  /-- TRAP with a vector none of the six rows below names (R175, R184); `ign4` is the ignored `ir[11:8]`. -/
  | trap (ign4 : BitVec 4) (vect8 : BitVec 8)
  /-- TRAP x20 (R177). -/
  | getc
  /-- TRAP x21 (R178). -/
  | out
  /-- TRAP x22 (R179). -/
  | puts
  /-- TRAP x23, the IN routine (R180). -/
  | inChar
  /-- TRAP x24 (R181). -/
  | putsp
  /-- TRAP x25 (R183). -/
  | halt
  deriving DecidableEq, Repr

/-- The opcode of each row of R85. -/
def Instr.opcode : Instr → Opcode
  | .br _ _ => .br
  | .addReg _ _ _ | .addImm _ _ _ => .add
  | .ld _ _ => .ld
  | .st _ _ => .st
  | .jsr _ | .jsrr _ => .jsr
  | .andReg _ _ _ | .andImm _ _ _ => .and
  | .ldr _ _ _ => .ldr
  | .str _ _ _ => .str
  | .rti _ => .rti
  | .not _ _ => .not
  | .ldi _ _ => .ldi
  | .sti _ _ => .sti
  | .jmp _ => .jmp
  | .res _ => .res
  | .lea _ _ => .lea
  | .trap _ _ | .getc | .out | .puts | .inChar | .putsp | .halt => .trap

end Sys2Proof
end

