-- ==== Sys2Proof/WellFormed.lean ====
section
/-! DEFINITION. Well-formed instructions: those a word can decode to. Every operand value is legal (spec/30_encoding.md R82,
R209); the one check is that the generic TRAP row holds no vector that has a row of its own (R88, R89). -/

namespace Sys2Proof

/-- The six vectors with a service routine, 0x20 to 0x25 (R88). -/
def definedVector (v : BitVec 8) : Bool := 0x20 ≤ v.toNat && v.toNat ≤ 0x25

/-- The generic TRAP row is reached only by the 250 unknown vectors (R89). -/
def Instr.wf : Instr → Bool
  | .trap _ vect8 => !definedVector vect8
  | .br _ _ | .addReg _ _ _ | .addImm _ _ _ | .ld _ _ | .st _ _ | .jsr _ | .jsrr _ | .andReg _ _ _ | .andImm _ _ _
  | .ldr _ _ _ | .str _ _ _ | .rti _ | .not _ _ | .ldi _ _ | .sti _ _ | .jmp _ | .res _ | .lea _ _ | .getc | .out
  | .puts | .inChar | .putsp | .halt => true

end Sys2Proof
end

