-- ==== Sys2Proof/Decode.lean ====
section
/-! DEFINITION. The decoder, total on the 65536 words (spec/30_encoding.md R86), and the encoder beside it, both from the
formats of R81 and the opcode map of R85; `bits` is the field extraction of spec/40_cycle_and_units.md R113. -/

namespace Sys2Proof

/-- `word[hi:lo]`, right-justified (R9, R113). Its domain is `0 ≤ lo ≤ hi ≤ 15`; outside it R113 gives no meaning, so a
call must carry a proof of the domain (93_implementation_defined.md U8; log 21). -/
def bits (w : Word) (hi lo : Nat) (_ : lo ≤ hi ∧ hi ≤ 15 := by decide) : BitVec (hi - lo + 1) :=
  w.extractLsb hi lo

/-! ### Register numbers and opcodes -/

/-- The register a 3-bit field names (R82). -/
def Reg.ofBits (b : BitVec 3) : Reg :=
  match b.toNat with
  | 0 => .r0
  | 1 => .r1
  | 2 => .r2
  | 3 => .r3
  | 4 => .r4
  | 5 => .r5
  | 6 => .r6
  | _ => .r7

/-- The number of a register (R20, R82). -/
def Reg.toBits : Reg → BitVec 3
  | .r0 => 0
  | .r1 => 1
  | .r2 => 2
  | .r3 => 3
  | .r4 => 4
  | .r5 => 5
  | .r6 => 6
  | .r7 => 7

/-- The opcode map (R84, R85; the spec's own reading of the source's list, D1: UNVERIFIED, log 9). -/
def Opcode.ofBits (b : BitVec 4) : Opcode :=
  match b.toNat with
  | 0 => .br
  | 1 => .add
  | 2 => .ld
  | 3 => .st
  | 4 => .jsr
  | 5 => .and
  | 6 => .ldr
  | 7 => .str
  | 8 => .rti
  | 9 => .not
  | 10 => .ldi
  | 11 => .sti
  | 12 => .jmp
  | 13 => .res
  | 14 => .lea
  | _ => .trap

/-- The number of an opcode (R85). -/
def Opcode.toBits : Opcode → BitVec 4
  | .br => 0
  | .add => 1
  | .ld => 2
  | .st => 3
  | .jsr => 4
  | .and => 5
  | .ldr => 6
  | .str => 7
  | .rti => 8
  | .not => 9
  | .ldi => 10
  | .sti => 11
  | .jmp => 12
  | .res => 13
  | .lea => 14
  | .trap => 15

/-! ### Decoding -/

/-- The register named by `ir[11:9]`: DR, or SR of a store (R82). -/
def regHi (w : Word) : Reg := Reg.ofBits (bits w 11 9)

/-- The register named by `ir[8:6]`: SR1, BaseR, or SR of NOT (R82). -/
def regMid (w : Word) : Reg := Reg.ofBits (bits w 8 6)

/-- The register named by `ir[2:0]`: SR2 (R82). -/
def regLo (w : Word) : Reg := Reg.ofBits (bits w 2 0)

/-- Format TRAPF: the row of the vector `ir[7:0]` (R88, R89). -/
def decodeTrap (w : Word) : Instr :=
  match (bits w 7 0).toNat with
  | 0x20 => .getc
  | 0x21 => .out
  | 0x22 => .puts
  | 0x23 => .inChar
  | 0x24 => .putsp
  | 0x25 => .halt
  | _ => .trap (bits w 11 8) (bits w 7 0)

/-- The decoder: one arm per opcode, then `ir[5]` for ADD and AND and `ir[11]` for jump-to-subroutine (R86, R87). -/
def decode (w : Word) : Instr :=
  match Opcode.ofBits (bits w 15 12) with
  | .br => .br (bits w 11 9) (bits w 8 0)
  | .add =>
    if bits w 5 5 = 1 then .addImm (regHi w) (regMid w) (bits w 4 0) else .addReg (regHi w) (regMid w) (regLo w)
  | .ld => .ld (regHi w) (bits w 8 0)
  | .st => .st (regHi w) (bits w 8 0)
  | .jsr => if bits w 11 11 = 1 then .jsr (bits w 10 0) else .jsrr (regMid w)
  | .and =>
    if bits w 5 5 = 1 then .andImm (regHi w) (regMid w) (bits w 4 0) else .andReg (regHi w) (regMid w) (regLo w)
  | .ldr => .ldr (regHi w) (regMid w) (bits w 5 0)
  | .str => .str (regHi w) (regMid w) (bits w 5 0)
  | .rti => .rti (bits w 11 0)
  | .not => .not (regHi w) (regMid w)
  | .ldi => .ldi (regHi w) (bits w 8 0)
  | .sti => .sti (regHi w) (bits w 8 0)
  | .jmp => .jmp (regMid w)
  | .res => .res (bits w 11 0)
  | .lea => .lea (regHi w) (bits w 8 0)
  | .trap => decodeTrap w

/-- What the decoder reads from an instruction of `nbits` bits whose bits are `w`, numbered as the opcode table numbers
them; every bit above `nbits` is 0. One instruction is one 16-bit word (R80), and no word is refused (R86). -/
def decodeTableWord (nbits w : Nat) : Option Instr :=
  some (decode (BitVec.ofNat 16 (w % 2 ^ nbits)))

/-! ### Encoding -/

/-- Format OPR: `op DR SR1 0 00 SR2` (R81; the ignored `ir[4:3]` are 00, R90). -/
def encodeOpr (op : Opcode) (dr sr1 sr2 : Reg) : Word :=
  op.toBits ++ dr.toBits ++ sr1.toBits ++ 0#1 ++ 0#2 ++ sr2.toBits

/-- Format OPI: `op DR SR1 1 imm5` (R81). -/
def encodeOpi (op : Opcode) (dr sr1 : Reg) (imm5 : BitVec 5) : Word :=
  op.toBits ++ dr.toBits ++ sr1.toBits ++ 1#1 ++ imm5

/-- Format PCR: `op reg PCoffset9` (R81). -/
def encodePcr (op : Opcode) (reg : Reg) (off9 : BitVec 9) : Word :=
  op.toBits ++ reg.toBits ++ off9

/-- Format BRO: `op reg BaseR offset6` (R81). -/
def encodeBro (op : Opcode) (reg base : Reg) (off6 : BitVec 6) : Word :=
  op.toBits ++ reg.toBits ++ base.toBits ++ off6

/-- Format BRF: `op n z p PCoffset9` (R81). -/
def encodeBrf (mask : BitVec 3) (off9 : BitVec 9) : Word := Opcode.br.toBits ++ mask ++ off9

/-- Format JSRF: `op 1 PCoffset11` (R81). -/
def encodeJsrf (off11 : BitVec 11) : Word := Opcode.jsr.toBits ++ 1#1 ++ off11

/-- Format JSRRF: `op 0 00 BaseR 000000` (R81; the ignored bits are 0, R90). -/
def encodeJsrrf (base : Reg) : Word := Opcode.jsr.toBits ++ 0#1 ++ 0#2 ++ base.toBits ++ 0#6

/-- Format NOT: `op DR SR 111111` (R81; the ignored bits are 1, R90). -/
def encodeNot (dr sr : Reg) : Word := Opcode.not.toBits ++ dr.toBits ++ sr.toBits ++ 0b111111#6

/-- Format JMPF: `op 000 BaseR 000000` (R81; the ignored bits are 0, R90). -/
def encodeJmpf (base : Reg) : Word := Opcode.jmp.toBits ++ 0#3 ++ base.toBits ++ 0#6

/-- Format NONE: `op ignored` (R81). -/
def encodeNone (op : Opcode) (low12 : BitVec 12) : Word := op.toBits ++ low12

/-- Format TRAPF: `op ignored vector` (R81). -/
def encodeTrapf (ign4 : BitVec 4) (vect8 : BitVec 8) : Word := Opcode.trap.toBits ++ ign4 ++ vect8

/-- The word of an instruction, the ignored bits filled as R90 says the customary assembler fills them (PRESUMED, log 10). -/
def encode : Instr → Word
  | .br mask off9 => encodeBrf mask off9
  | .addReg dr sr1 sr2 => encodeOpr .add dr sr1 sr2
  | .addImm dr sr1 imm5 => encodeOpi .add dr sr1 imm5
  | .ld dr off9 => encodePcr .ld dr off9
  | .st sr off9 => encodePcr .st sr off9
  | .jsr off11 => encodeJsrf off11
  | .jsrr base => encodeJsrrf base
  | .andReg dr sr1 sr2 => encodeOpr .and dr sr1 sr2
  | .andImm dr sr1 imm5 => encodeOpi .and dr sr1 imm5
  | .ldr dr base off6 => encodeBro .ldr dr base off6
  | .str sr base off6 => encodeBro .str sr base off6
  | .rti low12 => encodeNone .rti low12
  | .not dr sr => encodeNot dr sr
  | .ldi dr off9 => encodePcr .ldi dr off9
  | .sti sr off9 => encodePcr .sti sr off9
  | .jmp base => encodeJmpf base
  | .res low12 => encodeNone .res low12
  | .lea dr off9 => encodePcr .lea dr off9
  | .trap ign4 vect8 => encodeTrapf ign4 vect8
  | .getc => encodeTrapf 0 0x20
  | .out => encodeTrapf 0 0x21
  | .puts => encodeTrapf 0 0x22
  | .inChar => encodeTrapf 0 0x23
  | .putsp => encodeTrapf 0 0x24
  | .halt => encodeTrapf 0 0x25

/-! ### The opcode table -/

/-- The mask and match columns of a row of spec/opcode_table.json. -/
structure Row where
  mask : Word
  value : Word
  deriving DecidableEq, Repr

/-- The row of the opcode table each constructor stands for (R85, R88, R89). -/
def Instr.row : Instr → Row
  | .br _ _ => ⟨0xF000, 0x0000⟩
  | .addReg _ _ _ => ⟨0xF020, 0x1000⟩
  | .addImm _ _ _ => ⟨0xF020, 0x1020⟩
  | .ld _ _ => ⟨0xF000, 0x2000⟩
  | .st _ _ => ⟨0xF000, 0x3000⟩
  | .jsr _ => ⟨0xF800, 0x4800⟩
  | .jsrr _ => ⟨0xF800, 0x4000⟩
  | .andReg _ _ _ => ⟨0xF020, 0x5000⟩
  | .andImm _ _ _ => ⟨0xF020, 0x5020⟩
  | .ldr _ _ _ => ⟨0xF000, 0x6000⟩
  | .str _ _ _ => ⟨0xF000, 0x7000⟩
  | .rti _ => ⟨0xF000, 0x8000⟩
  | .not _ _ => ⟨0xF000, 0x9000⟩
  | .ldi _ _ => ⟨0xF000, 0xA000⟩
  | .sti _ _ => ⟨0xF000, 0xB000⟩
  | .jmp _ => ⟨0xF000, 0xC000⟩
  | .res _ => ⟨0xF000, 0xD000⟩
  | .lea _ _ => ⟨0xF000, 0xE000⟩
  | .trap _ _ => ⟨0xF000, 0xF000⟩
  | .getc => ⟨0xF0FF, 0xF020⟩
  | .out => ⟨0xF0FF, 0xF021⟩
  | .puts => ⟨0xF0FF, 0xF022⟩
  | .inChar => ⟨0xF0FF, 0xF023⟩
  | .putsp => ⟨0xF0FF, 0xF024⟩
  | .halt => ⟨0xF0FF, 0xF025⟩

end Sys2Proof
end

