-- ==== Sys2Proof/Config.lean ====
section
/-! DEFINITION. What an embedding fixes for a run (the parameters of spec/00_scope.md R8) and the one free value of the
model (the bytes of the input collaborator, spec/10_state.md R38). -/

namespace Sys2Proof

/-- The byte that the `n`-th free `read_char` call returns. The environment chooses it (R38; 93_implementation_defined.md
U7, "any value 0 to 255 per call"), so it has no body and no proof can see it. Log 3, DESIGN CHOICE. -/
opaque Config.inputByte : Nat → Byte

/-- The text 92_eei_decisions.md D10 suggests for `IN_PROMPT`: `"Enter a character: "`, as bytes (R8). The spec marks it as
general knowledge: PRESUMED, log 7. -/
def Config.defaultPrompt : List Byte :=
  [0x45, 0x6E, 0x74, 0x65, 0x72, 0x20, 0x61, 0x20, 0x63, 0x68, 0x61, 0x72, 0x61, 0x63, 0x74, 0x65, 0x72, 0x3A, 0x20]

/-- The parameters of R8 that the core and the loader read. `INSTR_LIMIT` is the embedding caller's (R239) and is an
argument of the caller's run; `origin` and `image` are launch inputs. -/
structure Params where
  /-- `IN_PROMPT`: what the IN routine writes before it reads (R180). -/
  inPrompt : List Byte
  /-- `JSRR_LINK_FIRST`: whether JSRR writes R7 before it reads the base register (R164). -/
  jsrrLinkFirst : Bool
  /-- `LOAD_END`: one past the last address an image word may be loaded at, 1 to 0x10000 (R237). -/
  loadEnd : Nat
  deriving DecidableEq, Repr

/-- The default column of R8. -/
def Params.default : Params :=
  { inPrompt := Config.defaultPrompt, jsrrLinkFirst := true, loadEnd := 0xFE00 }

/-- The range R8 gives `LOAD_END`. -/
abbrev Params.wf (p : Params) : Prop := 1 ≤ p.loadEnd ∧ p.loadEnd ≤ 0x10000

end Sys2Proof
end

