-- ==== Sys2Proof/Machine/State.lean ====
section
/-! DEFINITION. The state of the machine as plain data (spec/10_state.md R20 to R41), its reset value, and the reasons a
step can stop. -/

namespace Sys2Proof.Machine

/-- The register file R0 to R7 (R20). No register is hard-wired. -/
structure Regs where
  r0 : Word
  r1 : Word
  r2 : Word
  r3 : Word
  r4 : Word
  r5 : Word
  r6 : Word
  r7 : Word
  deriving DecidableEq, Repr

/-- One listed memory word: its word address and its value. The addressable unit is the 16-bit word and there is no byte
address (R32; spec/20_memory.md R54, R55). Log 1. -/
abbrev WordCell := Nat × Word

/-- Memory: 65536 words (R32), as the list of those that do not read as `unlistedWord`, by rising address. -/
abbrev Mem := List WordCell

/-- What a word that is not listed reads as: memory is zero-initialised (R40). -/
def unlistedWord : Word := 0

/-- The canonical form of the part of memory from address `lo` up. -/
def memWfFrom : Nat → Mem → Bool
  | _, [] => true
  | lo, (a, v) :: m => decide (lo ≤ a) && decide (a < 0x10000) && decide (v ≠ unlistedWord) && memWfFrom (a + 1) m

/-- The canonical form of memory: addresses strictly rising, all below 0x10000, no listed word equal to `unlistedWord`. -/
def Mem.wf (m : Mem) : Bool := memWfFrom 0 m

/-- The three causes of a fault (spec/60_exceptions.md R200, R202). -/
inductive FaultCause where
  | illegalOpcode
  | unknownTrapVector
  | unsupportedRTI
  deriving DecidableEq, Repr

/-- The fault record (R35): the cause, the opcode `ir[15:12]`, the address `pc0` of the faulting instruction and its whole
word. -/
structure FaultRecord where
  cause : FaultCause
  opcode : BitVec 4
  addr : Word
  ir : Word
  deriving DecidableEq, Repr

/-- The run state (R34). The record exists when and only when the machine is Faulted (R35), so it is Faulted's argument. -/
inductive RunState where
  | running
  | halted
  | faulted (record : FaultRecord)
  deriving DecidableEq, Repr

/-- What the environment does with a `read_char` call once it has handed over every byte of `ready` (R38): it goes on
supplying bytes of its own choice, or the call never returns. Log 3. -/
inductive InputTail where
  | free
  | silent
  deriving DecidableEq, Repr

/-- The input stream (R38) as plain data: the bytes the environment will return next, oldest first, and what follows them.
`drawn` counts the free bytes taken so far and is the argument of `Config.inputByte`. `tail` and `drawn` are the model's
own fields. Log 3. -/
structure InputStream where
  ready : List Byte
  tail : InputTail
  drawn : Nat
  deriving DecidableEq, Repr

/-- The whole state of the machine. -/
structure State where
  /-- R0 to R7 (R20). -/
  regs : Regs
  /-- The program counter (R23). -/
  pc : Word
  /-- The processor-status register: bit 15 privilege mode, bits 14:3 unnamed, N, Z, P in bits 2, 1, 0 (R26). -/
  psr : Word
  /-- The memory array (R32). -/
  mem : Mem
  /-- The run state with the fault record (R34, R35). -/
  run : RunState
  /-- The bytes written so far, in call order (R39). -/
  output : List Byte
  /-- The input stream (R38). -/
  input : InputStream
  /-- The parameters of the embedding (spec/00_scope.md R8), constant for a run; the model's own field (R41; log 7). -/
  params : Params
  deriving DecidableEq, Repr

/-- The outcomes of a step that are not a next state. None of them is a fault of R200: those are next states. -/
inductive Fault where
  /-- Raised by `step` when the machine is Halted: the state is terminal and has no cycle (R34). Safe. Log 6. -/
  | halted
  /-- Raised by `step` when the machine is Faulted: the state is terminal and has no cycle (R34, R36). Safe. Log 6. -/
  | faulted (record : FaultRecord)
  /-- Raised by GETC and IN when `read_char` does not return: the cycle has no outcome yet and the machine is suspended
  inside it, in the state `waiting` (R38, R111, R210). Safe. Log 4. -/
  | awaitingInput (waiting : State)
  /-- Raised by PUTS and PUTSP when no word of memory ends the scan: the cycle never completes (R179, R181, R210). Safe.
  Log 5. -/
  | endlessScan
  deriving DecidableEq, Repr

/-- The reasons an instruction has no meaning here. -/
inductive Refusal where
  /-- Raised only by an arm of `exec` that has no meaning yet. No arm of this model raises it. Safe. -/
  | notModelled (mnemonic : String)
  deriving DecidableEq, Repr

/-- The registers after reset (R40). -/
def Regs.zero : Regs := { r0 := 0, r1 := 0, r2 := 0, r3 := 0, r4 := 0, r5 := 0, r6 := 0, r7 := 0 }

/-- PSR after reset: Z alone (R40; 90_conflicts.md C1). -/
def resetPsr : Word := 0x0002

/-- The input stream of a machine nobody has prepared input for: free bytes from the first call. R40 leaves the stream to
the environment: DESIGN CHOICE, log 3. -/
def InputStream.unprepared : InputStream := { ready := [], tail := .free, drawn := 0 }

/-- A machine just created with its memory loaded (R40; spec/70_reset_and_hazards.md R232). -/
def State.created (params : Params) (origin : Word) (mem : Mem) : State :=
  { regs := .zero
    pc := origin
    psr := resetPsr
    mem := mem
    run := .running
    output := []
    input := .unprepared
    params := params }

/-- The machine right after reset (R40), with the default parameters (R8), an empty image (valid by R237) and the origin
0x3000 that the spec's vectors use (spec/95_test_vectors.md): DESIGN CHOICE, log 2. -/
def State.reset : State := .created .default 0x3000 []

end Sys2Proof.Machine
end

