-- ==== Sys2Proof/Machine/Ops.lean ====
section
/-! DEFINITION. The named operations over registers, memory, the run state and the character streams
(spec/00_scope.md R11), fetching (spec/40_cycle_and_units.md R110), and raising a fault (spec/60_exceptions.md R201), which
is this machine's only exception. There is no return from it: a fault is terminal and no trap saves anything to return to
(R204, R207, R208). -/

namespace Sys2Proof.Machine

/-! ### General registers -/

/-- `x[i]` on a register file (R11, R20). -/
def regGet (rs : Regs) : Reg → Word
  | .r0 => rs.r0
  | .r1 => rs.r1
  | .r2 => rs.r2
  | .r3 => rs.r3
  | .r4 => rs.r4
  | .r5 => rs.r5
  | .r6 => rs.r6
  | .r7 => rs.r7

/-- `x[i] <- v` on a register file (R11, R20). -/
def regSet (rs : Regs) (r : Reg) (v : Word) : Regs :=
  match r with
  | .r0 => { rs with r0 := v }
  | .r1 => { rs with r1 := v }
  | .r2 => { rs with r2 := v }
  | .r3 => { rs with r3 := v }
  | .r4 => { rs with r4 := v }
  | .r5 => { rs with r5 := v }
  | .r6 => { rs with r6 := v }
  | .r7 => { rs with r7 := v }

/-- `x[i]` (R11). -/
def getReg (s : State) (r : Reg) : Word := regGet s.regs r

/-- `x[i] <- v` (R11). -/
def setReg (s : State) (r : Reg) (v : Word) : State := { s with regs := regSet s.regs r v }

/-! ### Program counter and processor-status register -/

/-- `pc <- v` (R11). -/
def setPc (s : State) (v : Word) : State := { s with pc := v }

/-- A write of the whole processor-status register; only `setcc` calls it (R26, R30). -/
def setPsr (s : State) (v : Word) : State := { s with psr := v }

/-! ### Memory -/

/-- The word at an address, given as a number. -/
def memReadAt : Mem → Nat → Word
  | [], _ => unlistedWord
  | (b, v) :: m, a => if a = b then v else memReadAt m a

/-- The cell of a word, if it has to be listed, in front of `m`. -/
def memCons (a : Nat) (v : Word) (m : Mem) : Mem := if v = unlistedWord then m else (a, v) :: m

/-- Replace the word at an address, given as a number, keeping the canonical form. -/
def memWriteAt : Mem → Nat → Word → Mem
  | [], a, v => memCons a v []
  | (b, w) :: m, a, v =>
    if a < b then memCons a v ((b, w) :: m)
    else if a = b then memCons a v m
    else (b, w) :: memWriteAt m a v

/-- `MemRead(a, 16)` (spec/20_memory.md R51). -/
def memRead (m : Mem) (a : Word) : Word := memReadAt m a.toNat

/-- `MemWrite(a, 16, v)` (R52). -/
def memWrite (m : Mem) (a v : Word) : Mem := memWriteAt m a.toNat v

/-- `MemRead` on the state (R51). -/
def loadWord (s : State) (a : Word) : Word := memRead s.mem a

/-- `MemWrite` on the state (R52). -/
def storeWord (s : State) (a v : Word) : State := { s with mem := memWrite s.mem a v }

/-! ### Fetch -/

/-- The word the cycle fetches: `MemRead(pc0, 16)` (R23, R110). No byte is swapped (R55; 90_conflicts.md C4). -/
def fetchWord (s : State) : Word := loadWord s s.pc

/-- `pc <- pc0 + 1`, before anything else uses `pc` (R23, R110; in every cycle, D3, log 11). -/
def advancePc (s : State) : State := setPc s (s.pc + 1)

/-! ### Run state and faults -/

/-- `run <- v` (R34). -/
def setRun (s : State) (v : RunState) : State := { s with run := v }

/-- `raise F(opcode, addr, ir)` inside an instruction's meaning (R201): the machine becomes Faulted with the record and
nothing else changes. `pc` already holds `pc0 + 1` (R12), so `addr = pc0` is `pc - 1`; `opcode` is `ir[15:12]` (R35). -/
def raiseFault (cause : FaultCause) (ir : Word) (s : State) : State :=
  setRun s (.faulted { cause := cause, opcode := bits ir 15 12, addr := s.pc - 1, ir := ir })

/-! ### Character streams -/

/-- `write_char(b)` for each byte of a list, in order (R39, R68). Every call returns (D20, log 18). -/
def writeChars (s : State) (bs : List Byte) : State := { s with output := s.output ++ bs }

/-- `write_char(b)` (R39). -/
def writeChar (s : State) (b : Byte) : State := writeChars s [b]

/-- Replace the input stream. -/
def setInput (s : State) (v : InputStream) : State := { s with input := v }

/-- One `read_char` call on a stream (R38): the byte and the stream after it, or `none` where the call never returns. -/
def takeByte (i : InputStream) : Option (Byte × InputStream) :=
  match i.ready, i.tail with
  | b :: rest, _ => some (b, { i with ready := rest })
  | [], .free => some (Config.inputByte i.drawn, { i with drawn := i.drawn + 1 })
  | [], .silent => none

/-- `read_char()` (R38). -/
def readChar (s : State) : Option (Byte × State) :=
  match takeByte s.input with
  | some (b, i) => some (b, setInput s i)
  | none => none

/-- The host's move "supply input byte" (R38, R241): the byte comes after those already supplied. -/
def supplyInput (s : State) (b : Byte) : State := setInput s { s.input with ready := s.input.ready ++ [b] }

end Sys2Proof.Machine
end

