-- ==== Sys2Proof/Machine/Flags.lean ====
section
/-! DEFINITION. The condition-code unit (spec/40_cycle_and_units.md R115, R116) and the flags BR samples (R110). -/

namespace Sys2Proof.Machine

/-- The one-hot code of a value: 4 negative, 2 zero, 1 positive; the negative test is bit 15 (R115). -/
def ccOf (v : Word) : BitVec 3 :=
  if bits v 15 15 = 1 then 0b100 else if v = 0 then 0b010 else 0b001

/-- `psr[2:0] <- c`, bits 15:3 kept (R11, R26). -/
def withCc (psr : Word) (c : BitVec 3) : Word := bits psr 15 3 ++ c

/-- `setcc(v)` (R115). -/
def setcc (s : State) (v : Word) : State := setPsr s (withCc s.psr (ccOf v))

/-- `cond`: the flags `psr[2:0]` (R110). -/
def condOf (s : State) : BitVec 3 := bits s.psr 2 0

/-- A defining instruction's result: `x[DR] <- v`, then `setcc(v)` (R116). -/
def defineReg (s : State) (dr : Reg) (v : Word) : State := setcc (setReg s dr v) v

end Sys2Proof.Machine
end

