-- ==== Sys2Proof/Machine/Operands.lean ====
section
/-! DEFINITION. Operand forms: the sign-extended immediates and offsets (spec/30_encoding.md R83; spec/40_cycle_and_units.md
R114) and the addressing modes (spec/42_data_movement.md R147). `pc` is the already incremented counter (spec/00_scope.md
R12), and every sum is modulo 2^16 (spec/20_memory.md R53; D4, log 12). -/

namespace Sys2Proof.Machine

/-- `sext_16(value, n)` for the low `n` bits of a value, given as an `n`-bit field (R114). `n` ranges 3 to 11; outside it
R114 gives no meaning, so a call must carry a proof of the range (93_implementation_defined.md U8; log 21). -/
def sext16 {n : Nat} (f : BitVec n) (_ : 3 ≤ n ∧ n ≤ 11 := by decide) : Word := f.signExtend 16

/-- `zext_16(c, 8)`: a character as a register value, high byte 0 (R11; D9, log 14). -/
def zext16 (c : Byte) : Word := c.setWidth 16

/-- `v[7:0]` (R54). -/
def lowByte (v : Word) : Byte := bits v 7 0

/-- `v[15:8]` (R54). -/
def highByte (v : Word) : Byte := bits v 15 8

/-- The immediate operand of ADD and AND (R119). -/
def immOperand (imm5 : BitVec 5) : Word := sext16 imm5

/-- `pc + sext_16(ir[8:0], 9)`: PC-relative (R147). -/
def pcRel9 (s : State) (off9 : BitVec 9) : Word := s.pc + sext16 off9

/-- `pc + sext_16(ir[10:0], 11)`: the target of JSR (R163). -/
def pcRel11 (s : State) (off11 : BitVec 11) : Word := s.pc + sext16 off11

/-- `x[BaseR] + sext_16(ir[5:0], 6)`: base plus offset (R147). -/
def baseOff (s : State) (base : Reg) (off6 : BitVec 6) : Word := getReg s base + sext16 off6

/-- The pointer read at the PC-relative address: indirect (R147). -/
def indirect (s : State) (off9 : BitVec 9) : Word := loadWord s (pcRel9 s off9)

end Sys2Proof.Machine
end

