-- ==== Sys2Proof/Machine/Alu.lean ====
section
/-! DEFINITION. Arithmetic and logic: ADD, AND, NOT (spec/41_alu.md R130 to R134). The state each meaning gets has `pc`
already incremented (spec/00_scope.md R12); both sources are read before DR is written. -/

namespace Sys2Proof.Machine

/-- ADD, register form (R130). -/
def execAddReg (dr sr1 sr2 : Reg) (s : State) : Host.Outcome State Fault Refusal :=
  .next (defineReg s dr (getReg s sr1 + getReg s sr2))

/-- ADD, immediate form (R131). -/
def execAddImm (dr sr1 : Reg) (imm5 : BitVec 5) (s : State) : Host.Outcome State Fault Refusal :=
  .next (defineReg s dr (getReg s sr1 + immOperand imm5))

/-- AND, register form (R132). -/
def execAndReg (dr sr1 sr2 : Reg) (s : State) : Host.Outcome State Fault Refusal :=
  .next (defineReg s dr (getReg s sr1 &&& getReg s sr2))

/-- AND, immediate form (R133). -/
def execAndImm (dr sr1 : Reg) (imm5 : BitVec 5) (s : State) : Host.Outcome State Fault Refusal :=
  .next (defineReg s dr (getReg s sr1 &&& immOperand imm5))

/-- NOT (R134). -/
def execNot (dr sr : Reg) (s : State) : Host.Outcome State Fault Refusal :=
  .next (defineReg s dr (~~~(getReg s sr)))

end Sys2Proof.Machine
end

