-- ==== Sys2Proof/Machine/Control.lean ====
section
/-! DEFINITION. Control transfer: BR, JMP, JSR, JSRR (spec/43_control.md R160 to R165). None of them writes the flags. -/

namespace Sys2Proof.Machine

/-- BR: taken when a mask bit is set whose flag is set (R160, R161; 90_conflicts.md C6). -/
def execBr (mask : BitVec 3) (off9 : BitVec 9) (s : State) : Host.Outcome State Fault Refusal :=
  .next (if mask &&& condOf s ≠ 0 then setPc s (pcRel9 s off9) else s)

/-- JMP (R162). -/
def execJmp (base : Reg) (s : State) : Host.Outcome State Fault Refusal :=
  .next (setPc s (getReg s base))

/-- `x[7] <- pc`: the link of JSR and JSRR (R21, R163, R164). -/
def linkR7 (s : State) : State := setReg s .r7 s.pc

/-- JSR (R163). -/
def execJsr (off11 : BitVec 11) (s : State) : Host.Outcome State Fault Refusal :=
  .next (setPc (linkR7 s) (pcRel11 s off11))

/-- JSRR under either setting of `JSRR_LINK_FIRST` (R164): linking first, the base register is read after the write of R7. -/
def jumpLinked (linkFirst : Bool) (base : Reg) (s : State) : State :=
  if linkFirst then setPc (linkR7 s) (getReg (linkR7 s) base) else setPc (linkR7 s) (getReg s base)

/-- JSRR (R164; D6, log 8). -/
def execJsrr (base : Reg) (s : State) : Host.Outcome State Fault Refusal :=
  .next (jumpLinked s.params.jsrrLinkFirst base s)

end Sys2Proof.Machine
end

