-- ==== Sys2Proof/Machine/DataMovement.lean ====
section
/-! DEFINITION. Loads, stores and load-effective-address (spec/42_data_movement.md R140 to R147). No access can fault
(spec/20_memory.md R51, R52); stores leave the flags alone (spec/10_state.md R30). -/

namespace Sys2Proof.Machine

/-- LD (R140). -/
def execLd (dr : Reg) (off9 : BitVec 9) (s : State) : Host.Outcome State Fault Refusal :=
  .next (defineReg s dr (loadWord s (pcRel9 s off9)))

/-- ST (R141). -/
def execSt (sr : Reg) (off9 : BitVec 9) (s : State) : Host.Outcome State Fault Refusal :=
  .next (storeWord s (pcRel9 s off9) (getReg s sr))

/-- LDI: the pointer is read first (R142; R63). -/
def execLdi (dr : Reg) (off9 : BitVec 9) (s : State) : Host.Outcome State Fault Refusal :=
  .next (defineReg s dr (loadWord s (indirect s off9)))

/-- STI: the pointer is read before the write (R143; R63). -/
def execSti (sr : Reg) (off9 : BitVec 9) (s : State) : Host.Outcome State Fault Refusal :=
  .next (storeWord s (indirect s off9) (getReg s sr))

/-- LDR (R144). -/
def execLdr (dr base : Reg) (off6 : BitVec 6) (s : State) : Host.Outcome State Fault Refusal :=
  .next (defineReg s dr (loadWord s (baseOff s base off6)))

/-- STR (R145). -/
def execStr (sr base : Reg) (off6 : BitVec 6) (s : State) : Host.Outcome State Fault Refusal :=
  .next (storeWord s (baseOff s base off6) (getReg s sr))

/-- LEA: the address itself, and it sets the flags (R146). -/
def execLea (dr : Reg) (off9 : BitVec 9) (s : State) : Host.Outcome State Fault Refusal :=
  .next (defineReg s dr (pcRel9 s off9))

end Sys2Proof.Machine
end

