-- ==== Sys2Proof/Machine/System.lean ====
section
/-! DEFINITION. The two system instructions, each of which takes a fault (spec/45_system.md R195, R196): a next state whose
run state is Faulted (spec/60_exceptions.md R201). Privilege is not consulted (R212). -/

namespace Sys2Proof.Machine

/-- RTI takes the fault UnsupportedRTI (R195; D5, log 13). -/
def execRti (low12 : BitVec 12) (s : State) : Host.Outcome State Fault Refusal :=
  .next (raiseFault .unsupportedRTI (encode (.rti low12)) s)

/-- The reserved opcode takes the fault IllegalOpcode (R196). -/
def execRes (low12 : BitVec 12) (s : State) : Host.Outcome State Fault Refusal :=
  .next (raiseFault .illegalOpcode (encode (.res low12)) s)

end Sys2Proof.Machine
end

