-- ==== Sys2Proof/Machine/Trap.lean ====
section
/-! DEFINITION. TRAP and the trap dispatcher (spec/44_trap.md R175 to R184). A routine runs to completion inside the TRAP's
own cycle; none changes PC, R1 to R7, the flags or memory (R176, R182; D7, D8, log 14). -/

namespace Sys2Proof.Machine

/-- GETC (R177). Where `read_char` does not return, the machine waits in this cycle (R38; log 4). -/
def execGetc (s : State) : Host.Outcome State Fault Refusal :=
  match readChar s with
  | some (c, s') => .next (setReg s' .r0 (zext16 c))
  | none => .fault (.awaitingInput s)

/-- OUT (R178). -/
def execOut (s : State) : Host.Outcome State Fault Refusal :=
  .next (writeChar s (lowByte (getReg s .r0)))

/-- How many words a scan visits before it is back at its first word: it never ends if none of them ends it (R179, R181;
log 5). -/
def scanBound : Nat := 0x10000

/-- The bytes PUTS writes from address `a` (R179): the whole word is tested for zero, the low byte is written. `none` where
no zero word comes within `fuel` words. -/
def putsScan : Nat → Mem → Word → Option (List Byte)
  | 0, _, _ => none
  | fuel + 1, m, a =>
    if memRead m a = 0 then some []
    else (putsScan fuel m (a + 1)).map (lowByte (memRead m a) :: ·)

/-- PUTS (R179). -/
def execPuts (s : State) : Host.Outcome State Fault Refusal :=
  match putsScan scanBound s.mem (getReg s .r0) with
  | some bs => .next (writeChars s bs)
  | none => .fault .endlessScan

/-- IN (R180): the prompt is written before the machine waits, and the byte is echoed. -/
def execIn (s : State) : Host.Outcome State Fault Refusal :=
  match readChar (writeChars s s.params.inPrompt) with
  | some (c, s') => .next (setReg (writeChar s' c) .r0 (zext16 c))
  | none => .fault (.awaitingInput (writeChars s s.params.inPrompt))

/-- The bytes PUTSP writes from address `a` (R181): it stops at a word whose low byte is zero, writing nothing of it, or
after the low byte of a word whose high byte is zero. `none` where no such word comes within `fuel` words. -/
def putspScan : Nat → Mem → Word → Option (List Byte)
  | 0, _, _ => none
  | fuel + 1, m, a =>
    if lowByte (memRead m a) = 0 then some []
    else if highByte (memRead m a) = 0 then some [lowByte (memRead m a)]
    else (putspScan fuel m (a + 1)).map (fun bs => lowByte (memRead m a) :: highByte (memRead m a) :: bs)

/-- PUTSP (R181). -/
def execPutsp (s : State) : Host.Outcome State Fault Refusal :=
  match putspScan scanBound s.mem (getReg s .r0) with
  | some bs => .next (writeChars s bs)
  | none => .fault .endlessScan

/-- HALT (R183): nothing is written (D23, log 18). -/
def execHalt (s : State) : Host.Outcome State Fault Refusal := .next (setRun s .halted)

/-- TRAP, dispatch (R175): the six routines by vector, and the fault UnknownTrapVector for every other one (R184). A decoded
instruction reaches only the last arm (R89). -/
def execTrap (ign4 : BitVec 4) (vect8 : BitVec 8) (s : State) : Host.Outcome State Fault Refusal :=
  match vect8.toNat with
  | 0x20 => execGetc s
  | 0x21 => execOut s
  | 0x22 => execPuts s
  | 0x23 => execIn s
  | 0x24 => execPutsp s
  | 0x25 => execHalt s
  | _ => .next (raiseFault .unknownTrapVector (encodeTrapf ign4 vect8) s)

end Sys2Proof.Machine
end

