-- ==== Sys2Proof/Machine/Step.lean ====
section
/-! DEFINITION. One cycle of the machine (spec/40_cycle_and_units.md R110, R111), and the placing of an instruction where
the next cycle fetches it. -/

namespace Sys2Proof.Machine

/-- One cycle (R110). Halted and Faulted are terminal: from either no cycle executes and no state changes (R34); log 6. -/
def step (s : State) : Host.Outcome State Fault Refusal :=
  match s.run with
  | .running => exec (decode (fetchWord s)) (advancePc s)
  | .halted => .fault .halted
  | .faulted record => .fault (.faulted record)

/-- The instruction of `nbits` bits whose bits are `w` (every bit above them 0), stored as the word at `pc`, in a machine
that is Running, so that the next `step` fetches and runs it. Log 2. -/
def State.withFetchWord (s : State) (nbits w : Nat) : State :=
  setRun (storeWord s s.pc (BitVec.ofNat 16 (w % 2 ^ nbits))) .running

end Sys2Proof.Machine
end

