-- ==== Sys2Proof/Machine/Caller.lean ====
section
/-! DEFINITION. The embedding caller's run loop, with and without a bound on cycles, and what it gets back
(spec/40_cycle_and_units.md R112; spec/70_reset_and_hazards.md R239 to R241). The caller acts only between cycles. -/

namespace Sys2Proof.Machine

/-- What a bounded run ends in (R210, R241). -/
inductive CallerResult where
  /-- The core's result Halted, with the final state. -/
  | halted (final : State)
  /-- The core's result Faulted, with the fault record and the final state. -/
  | faulted (record : FaultRecord) (final : State)
  /-- The caller stopped between two cycles; the state is a valid Running state (R239, R240). -/
  | stopped (current : State)
  /-- A cycle that began has no outcome: it waits for input or scans for ever (R210). The caller cannot stop it (R240). -/
  | pending (why : Fault)
  /-- An instruction without a meaning; no instruction of this model is one. -/
  | refused (why : Refusal)
  deriving DecidableEq, Repr

/-- The run loop with `INSTR_LIMIT = limit` (R112, R239): stepping while Running, at most `limit` cycles. -/
def runFor : Nat → State → CallerResult
  | limit, s =>
    match s.run, limit with
    | .halted, _ => .halted s
    | .faulted record, _ => .faulted record s
    | .running, 0 => .stopped s
    | .running, n + 1 =>
      match step s with
      | .next s' => runFor n s'
      | .fault why => .pending why
      | .refused why => .refused why

/-- The run loop without a limit (R112, R239): it gives the result that some number of cycles reaches. -/
def RunsTo (s : State) (r : CallerResult) : Prop := ∃ limit, runFor limit s = r ∧ ∀ t, r ≠ .stopped t

/-- The run loop without a limit never ends (R112, R210): every number of cycles completes and leaves it Running. -/
def RunsForever (s : State) : Prop := ∀ limit, ∃ t, runFor limit s = .stopped t

end Sys2Proof.Machine
end

