-- ==== Sys2Proof/Machine/Loader.lean ====
section
/-! DEFINITION. The loader hand-off, as far as the core's startup contract needs it (spec/70_reset_and_hazards.md R232, R236,
R237). Every function here acts before the first cycle. -/

namespace Sys2Proof.Machine

/-- Why an image is not loaded (R237). No machine is created then. The missing file is the loader's own, out of scope
(spec/00_scope.md R5). -/
inductive LoadError where
  /-- Fewer than two bytes: no whole origin. -/
  | truncatedHeader
  /-- An odd number of bytes after the header (D24, log 16). -/
  | oddLength
  /-- `origin + n > LOAD_END` (D14, log 16). -/
  | tooLarge
  deriving DecidableEq, Repr

/-- A word from its two bytes in the external, big-endian order (spec/20_memory.md R55): the one byte swap. -/
def wordOfBytes (high low : Byte) : Word := high ++ low

/-- The words of a byte sequence, or `none` where a half word is left over (R236). -/
def wordsOfBytes : List Byte → Option (List Word)
  | [] => some []
  | [_] => none
  | high :: low :: rest => (wordsOfBytes rest).map (wordOfBytes high low :: ·)

/-- The origin and the image of an image file (R236). -/
def parseImage : List Byte → Except LoadError (Word × List Word)
  | [] => .error .truncatedHeader
  | [_] => .error .truncatedHeader
  | high :: low :: rest =>
    match wordsOfBytes rest with
    | some image => .ok (wordOfBytes high low, image)
    | none => .error .oddLength

/-- `MemWrite(origin + k, 16, image[k])` for each `k` in order (R232). -/
def writeImage : Mem → Word → List Word → Mem
  | m, _, [] => m
  | m, a, v :: rest => writeImage (memWrite m a v) (a + 1) rest

/-- The start-up procedure (R232), or the load error of an image that reaches past `LOAD_END` (R237). -/
def loadImage (params : Params) (origin : Word) (image : List Word) : Except LoadError State :=
  if origin.toNat + image.length ≤ params.loadEnd then .ok (.created params origin (writeImage [] origin image))
  else .error .tooLarge

/-- From an image file to a machine about to fetch its first instruction (R232, R236, R237). -/
def loadFile (params : Params) (file : List Byte) : Except LoadError State :=
  match parseImage file with
  | .ok (origin, image) => loadImage params origin image
  | .error e => .error e

end Sys2Proof.Machine
end

