-- ==== Sys2Proof/Safety.lean ====
section
/-! DEFINITION. What counts as a sound state and a safe run, and the words in which claims say what an instruction changes
and what it leaves (spec/10_state.md R22, R24, R29, R30; spec/60_exceptions.md R201). -/

namespace Sys2Proof.Machine

/-! ### Sound states and safe runs -/

/-- Exactly one of the three condition-code flags is set (R29). -/
abbrev oneHot (c : BitVec 3) : Prop := c = 0b100 ∨ c = 0b010 ∨ c = 0b001

/-- The opcode each cause of a fault belongs to (R202). -/
def faultOpcode : FaultCause → BitVec 4
  | .illegalOpcode => 13
  | .unknownTrapVector => 15
  | .unsupportedRTI => 8

/-- A fault record describes the instruction it was raised for: `pc` is one past it, its word is the one in memory, and the
cause is that word's (R35, R200, R201). -/
abbrev FaultRecord.fits (r : FaultRecord) (s : State) : Prop :=
  r.addr + 1 = s.pc ∧ loadWord s r.addr = r.ir ∧ r.opcode = bits r.ir 15 12 ∧ r.opcode = faultOpcode r.cause ∧
    (r.cause = .unknownTrapVector → definedVector (bits r.ir 7 0) = false)

/-- The fault record, where there is one, fits the state. -/
def recordFits (s : State) : Prop :=
  match s.run with
  | .faulted r => r.fits s
  | .running | .halted => True

/-- The invariant of the machine: memory in canonical form, one flag set (R29), PSR bits 15:3 zero (R27, R28), and a fault
record that fits (R35). -/
structure State.Inv (s : State) : Prop where
  memory : s.mem.wf = true
  flags : oneHot (condOf s)
  unnamed : bits s.psr 15 3 = 0
  record : recordFits s

/-- A run is safe as long as the machine is not Faulted (R36). -/
def State.safe (s : State) : Prop := ∀ r, s.run ≠ .faulted r

/-! ### Strings -/

/-- A word ends PUTSP's scan when one of its bytes is zero (R181). -/
def endsPacked (w : Word) : Prop := lowByte w = 0 ∨ highByte w = 0

/-- What PUTSP writes of the word that ends its scan (R181). -/
def lastPacked (w : Word) : List Byte := if lowByte w = 0 then [] else [lowByte w]

/-! ### What an instruction changes and what it leaves

Each relation says the whole effect of one shape of instruction, from the state `s` to the state `t`: what changes, and that
everything else stays. `pc'` is the program counter afterwards. -/

/-- The flags in `psr` are those `setcc(v)` sets (R115): N, Z, P. -/
structure FlagsDescribe (psr v : Word) : Prop where
  negative : bits psr 2 2 = 1 ↔ 0x8000 ≤ v.toNat
  zero : bits psr 1 1 = 1 ↔ v = 0
  positive : bits psr 0 0 = 1 ↔ v ≠ 0 ∧ v.toNat < 0x8000

/-- Every general register is as it was. -/
def SameRegs (s t : State) : Prop := ∀ r, getReg t r = getReg s r

/-- Every word of memory reads as it did. -/
def SameMem (s t : State) : Prop := ∀ a, loadWord t a = loadWord s a

/-- The run state, both character streams and the parameters are as they were. -/
structure SameRest (s t : State) : Prop where
  run : t.run = s.run
  output : t.output = s.output
  input : t.input = s.input
  params : t.params = s.params

/-- The effect of a defining instruction: DR takes `v`, the flags describe `v` (R116), nothing else changes. -/
structure Defines (s t : State) (pc' : Word) (dr : Reg) (v : Word) : Prop where
  result : getReg t dr = v
  flags : FlagsDescribe t.psr v
  pc : t.pc = pc'
  otherRegs : ∀ r, r ≠ dr → getReg t r = getReg s r
  psrRest : bits t.psr 15 3 = bits s.psr 15 3
  mem : SameMem s t
  rest : SameRest s t

/-- The effect of a store: the word at `a` becomes `v`, nothing else changes (R52). -/
structure Stores (s t : State) (pc' a v : Word) : Prop where
  stored : loadWord t a = v
  pc : t.pc = pc'
  otherWords : ∀ b, b ≠ a → loadWord t b = loadWord s b
  regs : SameRegs s t
  psr : t.psr = s.psr
  rest : SameRest s t

/-- The effect of a jump without a link: only the program counter changes. -/
structure Jumps (s t : State) (pc' : Word) : Prop where
  pc : t.pc = pc'
  regs : SameRegs s t
  psr : t.psr = s.psr
  mem : SameMem s t
  rest : SameRest s t

/-- The effect of a call: R7 takes `link`, the program counter changes, nothing else does. -/
structure Calls (s t : State) (pc' link : Word) : Prop where
  pc : t.pc = pc'
  link : getReg t .r7 = link
  otherRegs : ∀ r, r ≠ .r7 → getReg t r = getReg s r
  psr : t.psr = s.psr
  mem : SameMem s t
  rest : SameRest s t

/-- The effect of an output routine: the bytes `bs` are written in order, nothing else changes (R182). -/
structure Writes (s t : State) (pc' : Word) (bs : List Byte) : Prop where
  output : t.output = s.output ++ bs
  pc : t.pc = pc'
  regs : SameRegs s t
  psr : t.psr = s.psr
  mem : SameMem s t
  run : t.run = s.run
  input : t.input = s.input
  params : t.params = s.params

/-- The effect of an input routine: R0 takes the byte `c` with a zero high byte, `after` is what is left of the input, the
bytes `bs` are written, nothing else changes (R182). -/
structure Receives (s t : State) (pc' : Word) (c : Byte) (after : InputStream) (bs : List Byte) : Prop where
  high : bits (getReg t .r0) 15 8 = 0
  low : bits (getReg t .r0) 7 0 = c
  input : t.input = after
  output : t.output = s.output ++ bs
  pc : t.pc = pc'
  otherRegs : ∀ r, r ≠ .r0 → getReg t r = getReg s r
  psr : t.psr = s.psr
  mem : SameMem s t
  run : t.run = s.run
  params : t.params = s.params

/-- The machine stops: the run state becomes `run'` and, but for the program counter, nothing else changes (R183, R201). -/
structure Stops (s t : State) (pc' : Word) (run' : RunState) : Prop where
  run : t.run = run'
  pc : t.pc = pc'
  regs : SameRegs s t
  psr : t.psr = s.psr
  mem : SameMem s t
  output : t.output = s.output
  input : t.input = s.input
  params : t.params = s.params

/-! ### Instruction words -/

/-- The words whose execution takes a fault (spec/30_encoding.md R91): opcode 13, opcode 8, and opcode 15 with a vector
outside 0x20 to 0x25. -/
def wordFaults (w : Word) : Bool :=
  bits w 15 12 == 13 || bits w 15 12 == 8 || (bits w 15 12 == 15 && !definedVector (bits w 7 0))

/-- The bits of a word that no field covers (R90). -/
def ignoredBits (w : Word) : Word :=
  match Opcode.ofBits (bits w 15 12) with
  | .add | .and => if bits w 5 5 = 1 then 0 else 0x0018
  | .not => 0x003F
  | .jmp => 0x0E3F
  | .jsr => if bits w 11 11 = 1 then 0 else 0x063F
  | .trap => 0x0F00
  | .rti | .res => 0x0FFF
  | .br | .ld | .st | .ldr | .str | .ldi | .sti | .lea => 0

/-! ### What each instruction may touch, as the spec's tables give it -/

/-- The register an instruction writes: the last column of R22. -/
def writtenReg : Instr → Option Reg
  | .addReg dr _ _ | .addImm dr _ _ | .andReg dr _ _ | .andImm dr _ _ | .not dr _ => some dr
  | .ld dr _ | .ldi dr _ | .lea dr _ | .ldr dr _ _ => some dr
  | .jsr _ | .jsrr _ => some .r7
  | .getc | .inChar => some .r0
  | .st _ _ | .sti _ _ | .str _ _ _ | .br _ _ | .jmp _ | .out | .puts | .putsp | .halt | .trap _ _ | .rti _ | .res _ => none

/-- The seven instructions that write the flags (R30). -/
def setsFlags : Instr → Bool
  | .addReg _ _ _ | .addImm _ _ _ | .andReg _ _ _ | .andImm _ _ _ | .not _ _ | .ld _ _ | .ldi _ _ | .ldr _ _ _
  | .lea _ _ => true
  | .st _ _ | .sti _ _ | .str _ _ _ | .br _ _ | .jmp _ | .jsr _ | .jsrr _ | .rti _ | .res _ | .trap _ _ | .getc | .out
  | .puts | .inChar | .putsp | .halt => false

/-- The program counter at the end of the cycle: R24, from the state whose `pc` is already incremented. -/
def pcAfter (i : Instr) (s : State) : Word :=
  match i with
  | .br mask off9 => if mask &&& condOf s ≠ 0 then s.pc + sext16 off9 else s.pc
  | .jmp base => getReg s base
  | .jsr off11 => s.pc + sext16 off11
  | .jsrr base => if base = .r7 ∧ s.params.jsrrLinkFirst = true then s.pc else getReg s base
  | .addReg _ _ _ | .addImm _ _ _ | .andReg _ _ _ | .andImm _ _ _ | .not _ _ | .ld _ _ | .st _ _ | .ldi _ _ | .sti _ _
  | .ldr _ _ _ | .str _ _ _ | .lea _ _ | .getc | .out | .puts | .inChar | .putsp | .halt | .trap _ _ | .rti _
  | .res _ => s.pc

/-- The address a store writes (spec/20_memory.md R63). -/
def storeAddr (i : Instr) (s : State) : Option Word :=
  match i with
  | .st _ off9 => some (pcRel9 s off9)
  | .sti _ off9 => some (indirect s off9)
  | .str _ base off6 => some (baseOff s base off6)
  | .br _ _ | .jmp _ | .jsr _ | .jsrr _ | .addReg _ _ _ | .addImm _ _ _ | .andReg _ _ _ | .andImm _ _ _ | .not _ _
  | .ld _ _ | .ldi _ _ | .ldr _ _ _ | .lea _ _ | .getc | .out | .puts | .inChar | .putsp | .halt | .trap _ _ | .rti _
  | .res _ => none

/-- The register whose value a store writes (R22). -/
def storeSource : Instr → Option Reg
  | .st sr _ | .sti sr _ | .str sr _ _ => some sr
  | .br _ _ | .jmp _ | .jsr _ | .jsrr _ | .addReg _ _ _ | .addImm _ _ _ | .andReg _ _ _ | .andImm _ _ _ | .not _ _
  | .ld _ _ | .ldi _ _ | .ldr _ _ _ | .lea _ _ | .getc | .out | .puts | .inChar | .putsp | .halt | .trap _ _ | .rti _
  | .res _ => none

/-- The routines that write characters (spec/44_trap.md R178 to R181). -/
def writesOutput : Instr → Bool
  | .out | .puts | .inChar | .putsp => true
  | .br _ _ | .jmp _ | .jsr _ | .jsrr _ | .addReg _ _ _ | .addImm _ _ _ | .andReg _ _ _ | .andImm _ _ _ | .not _ _
  | .ld _ _ | .st _ _ | .ldi _ _ | .sti _ _ | .ldr _ _ _ | .str _ _ _ | .lea _ _ | .getc | .halt | .trap _ _ | .rti _
  | .res _ => false

/-- The routines that read a character (R177, R180). -/
def readsInput : Instr → Bool
  | .getc | .inChar => true
  | .br _ _ | .jmp _ | .jsr _ | .jsrr _ | .addReg _ _ _ | .addImm _ _ _ | .andReg _ _ _ | .andImm _ _ _ | .not _ _
  | .ld _ _ | .st _ _ | .ldi _ _ | .sti _ _ | .ldr _ _ _ | .str _ _ _ | .lea _ _ | .out | .puts | .putsp | .halt
  | .trap _ _ | .rti _ | .res _ => false

/-- A state with other values in PSR bits 15:3 and the same flags (R26 to R28). -/
def withUpperPsr (s : State) (u : BitVec 13) : State := setPsr s (u ++ condOf s)

end Sys2Proof.Machine
end

