-- ==== Sys2Proof/Certificates/Slice0/Obligations.lean ====
section
/-! DEFINITION. The statements about the model, one `def Obligations.<Name> : Prop` each, in the order of the spec's files.
A statement "of a rule" starts from a Running machine and the bits of the word at PC, so it covers the rule's encoding as well
as its effect; a statement "complete" is about `exec` on every operand. -/

open Sys2Proof Sys2Proof.Machine

/-! ### Encoding (spec/30_encoding.md) -/

/-- Words of spec/95_test_vectors.md section 2.3 and of the instruction rules' examples decode to what they stand for. It
rests on the spec's own decisions D1 (log 9) and D2 (log 10). -/
def Obligations.SampleWordsDecode : Prop :=
  decode 0x03FD = .br 0b001 0x1FD ∧ decode 0x14C4 = .addReg .r2 .r3 .r4 ∧ decode 0x14F0 = .addImm .r2 .r3 0x10 ∧
  decode 0x2405 = .ld .r2 5 ∧ decode 0x37FE = .st .r3 0x1FE ∧ decode 0x4810 = .jsr 16 ∧ decode 0x46BF = .jsrr .r2 ∧
  decode 0x5B87 = .andReg .r5 .r6 .r7 ∧ decode 0x7182 = .str .r0 .r6 2 ∧ decode 0x92A0 = .not .r1 .r2 ∧
  decode 0xC1C0 = .jmp .r7 ∧ decode 0xE004 = .lea .r0 4 ∧ decode 0xFF25 = .halt ∧ decode 0xF026 = .trap 0 0x26 ∧
  decode 0x8FFF = .rti 0xFFF ∧ decode 0xDABC = .res 0xABC

/-- Decoding an encoded well-formed instruction gives it back, every operand at every value (R81, R85, R86). What the encoder
puts in ignored bits is the customary filling R90 gives from general knowledge: PRESUMED, log 10. It rests on the spec's own
decision D1 (log 9). -/
def Obligations.DecodeEncodeAgree : Prop :=
  ∀ i : Instr, i.wf = true → decode (encode i) = i

/-- Every word decodes to a well-formed instruction whose opcode-table row it matches (R86, R89). It rests on the spec's own
decision D1 (log 9). -/
def Obligations.DecodedWordMatchesItsRow : Prop :=
  ∀ w : Word, (decode w).wf = true ∧ w &&& (decode w).row.mask = (decode w).row.value

/-- Decoding and encoding again loses only ignored bits; and two words that differ only in ignored bits are the same
instruction with the same effect, but for the `ir` in the record of one that faults (R90, R35). That they are ignored is the
spec's own decision (D2; log 10). It rests on the spec's own decision D1 (log 9). -/
def Obligations.OnlyIgnoredBitsAreIgnored : Prop :=
  (∀ w : Word, encode (decode w) ||| ignoredBits w = w ||| ignoredBits w) ∧
  (∀ w v : Word, w ||| ignoredBits w = v ||| ignoredBits w → wordFaults w = false → decode v = decode w) ∧
  (∀ (w v : Word) (s : State), w ||| ignoredBits w = v ||| ignoredBits w → wordFaults w = true →
    ∃ r : FaultRecord, exec (decode w) s = .next (setRun s (.faulted r)) ∧
      exec (decode v) s = .next (setRun s (.faulted { r with ir := v })))

/-! ### The instruction cycle and the shared units (spec/40_cycle_and_units.md) -/

/-- The value of a bit field (R113). -/
def Obligations.BitFieldValue : Prop :=
  (∀ (w : Word) (hi lo : Nat) (h : lo ≤ hi ∧ hi ≤ 15),
    (bits w hi lo h).toNat = w.toNat / 2 ^ lo % 2 ^ (hi - lo + 1)) ∧
  (∀ (w : Word) (i : Nat) (h : i ≤ i ∧ i ≤ 15), bits w i i h = 1 ↔ w.getLsbD i = true) ∧
  ∀ w : Word, bits w 15 0 = w

/-- The value of a sign extension: `f` if its top bit is 0, `f + (0x10000 - 2^n)` if it is 1, which is the two's-complement
value of the low `n` bits (R114). -/
def Obligations.SignExtendValue : Prop :=
  ∀ (n : Nat) (h : 3 ≤ n ∧ n ≤ 11) (value : Word),
    (sext16 (value.setWidth n) h).toNat =
      (if value.getLsbD (n - 1) then value.toNat % 2 ^ n + (0x10000 - 2 ^ n) else value.toNat % 2 ^ n) ∧
    (sext16 (value.setWidth n) h).toInt = (value.setWidth n).toInt

/-- A step of a Running machine is the execution of the instruction the word at PC decodes to, with PC advanced by one and
nothing else changed before it (R23, R110). That opcodes without a PC operand advance it too is the spec's own reading (D3;
log 11). It rests on the spec's own decision D4 (log 12). -/
def Obligations.StepRunsDecodedInstruction : Prop :=
  ∀ (s : State) (i : Instr), s.run = .running → decode (loadWord s s.pc) = i →
    step s = exec i { s with pc := s.pc + 1 }

/-- The word a store puts at the address of the next instruction is what the next cycle executes (R66, which the spec
derives from R32 and R62). -/
def Obligations.StoredWordIsFetchedNext : Prop :=
  ∀ (i : Instr) (s t : State) (sr : Reg), s.run = .running → s.mem.wf = true → storeSource i = some sr →
    storeAddr i s = some s.pc → exec i s = .next t →
    step t = exec (decode (getReg s sr)) { t with pc := s.pc + 1 }

/-- Halted and Faulted are terminal: from either no cycle executes (R34, R36; the outcome's names are the model's, log 6). It
rests on the spec's own decision D15 (log 23). -/
def Obligations.StoppedMachineHasNoCycle : Prop :=
  ∀ s : State, (s.run = .halted → step s = .fault .halted) ∧
    ∀ r : FaultRecord, s.run = .faulted r → step s = .fault (.faulted r)

/-- A cycle of a Running machine ends in a next state, or waits for input inside GETC or IN, or scans for ever inside PUTS or
PUTSP; no other instruction, address, operand or value stops it (R111, R209, R210; the outcomes' names are the model's, log 4
and log 5). It rests on the spec's own decisions D11 (log 15) and D20 (log 18). -/
def Obligations.NothingElseStopsACycle : Prop :=
  ∀ s : State, s.run = .running →
    (∃ t, step s = .next t) ∨
    (∃ w, step s = .fault (.awaitingInput w) ∧ takeByte s.input = none ∧ bits (loadWord s s.pc) 15 12 = 15 ∧
      (bits (loadWord s s.pc) 7 0 = 0x20 ∨ bits (loadWord s s.pc) 7 0 = 0x23)) ∨
    (step s = .fault .endlessScan ∧ (∀ a, loadWord s a ≠ 0) ∧ bits (loadWord s s.pc) 15 12 = 15 ∧
      (bits (loadWord s s.pc) 7 0 = 0x22 ∨ bits (loadWord s s.pc) 7 0 = 0x24))

/-- A cycle of a Running machine makes it Faulted exactly on the illegal words of R91, and Halted exactly on TRAP x25, with
any ignored bits (R34, R86, R183, R200). It rests on the spec's own decisions D1 (log 9), D2 (log 10), D5 (log 13) and D15
(log 23). -/
def Obligations.TerminalStatesExactly : Prop :=
  ∀ s t : State, step s = .next t →
    ((∃ r, t.run = .faulted r) ↔ wordFaults (loadWord s s.pc) = true) ∧
    (t.run = .halted ↔ bits (loadWord s s.pc) 15 12 = 15 ∧ bits (loadWord s s.pc) 7 0 = 0x25)

/-- `setcc(v)`: N if `v` is 0x8000 or more, Z if it is 0, P otherwise, exactly one of them set, PSR bits 15:3 and everything
outside PSR unchanged (R115). -/
def Obligations.SetccClassifies : Prop :=
  ∀ (s : State) (v : Word),
    (0x8000 ≤ v.toNat → condOf (setcc s v) = 0b100) ∧
    (v = 0 → condOf (setcc s v) = 0b010) ∧
    (0x0001 ≤ v.toNat ∧ v.toNat ≤ 0x7FFF → condOf (setcc s v) = 0b001) ∧
    oneHot (condOf (setcc s v)) ∧
    bits (setcc s v).psr 15 3 = bits s.psr 15 3 ∧
    setPsr (setcc s v) s.psr = s

/-- Addition wraps silently: the result is the sum modulo 0x10000 for every pair of values, N, Z and P describe the wrapped
result, no other bit of PSR records a carry or an overflow, and nothing stops the machine (R118, which the spec derives from
R20 and R26). -/
def Obligations.AdditionWraps : Prop :=
  ∀ (s : State) (dr sr1 sr2 : Reg), ∃ t, exec (.addReg dr sr1 sr2) s = .next t ∧
    (getReg t dr).toNat = ((getReg s sr1).toNat + (getReg s sr2).toNat) % 0x10000 ∧
    FlagsDescribe t.psr (BitVec.ofNat 16 ((getReg s sr1).toNat + (getReg s sr2).toNat)) ∧
    bits t.psr 15 3 = bits s.psr 15 3 ∧ t.run = s.run

/-- ADD and AND give identical results in both modes when the register holds what the immediate encodes (R119). -/
def Obligations.ImmediateAgreesWithRegister : Prop :=
  ∀ (s : State) (dr sr1 sr2 : Reg) (imm5 : BitVec 5), getReg s sr2 = sext16 imm5 →
    exec (.addImm dr sr1 imm5) s = exec (.addReg dr sr1 sr2) s ∧
    exec (.andImm dr sr1 imm5) s = exec (.andReg dr sr1 sr2) s

/-! ### Arithmetic and logic (spec/41_alu.md) -/

/-- ADD, AND and NOT complete on all operands with their result, their flags and nothing else changed (R130 to R134). -/
def Obligations.AluInstructionsComplete : Prop :=
  ∀ (s : State) (dr sr1 sr2 : Reg) (imm5 : BitVec 5),
    (∃ t, exec (.addReg dr sr1 sr2) s = .next t ∧ Defines s t s.pc dr (getReg s sr1 + getReg s sr2)) ∧
    (∃ t, exec (.addImm dr sr1 imm5) s = .next t ∧ Defines s t s.pc dr (getReg s sr1 + sext16 imm5)) ∧
    (∃ t, exec (.andReg dr sr1 sr2) s = .next t ∧ Defines s t s.pc dr (getReg s sr1 &&& getReg s sr2)) ∧
    (∃ t, exec (.andImm dr sr1 imm5) s = .next t ∧ Defines s t s.pc dr (getReg s sr1 &&& sext16 imm5)) ∧
    (∃ t, exec (.not dr sr1) s = .next t ∧ Defines s t s.pc dr (~~~(getReg s sr1)))

/-- ADD, register form (R130). -/
def Obligations.AddRegisterRule : Prop :=
  ∀ (s : State) (ir : Word), s.run = .running → loadWord s s.pc = ir → bits ir 15 12 = 1 → bits ir 5 5 = 0 →
    ∃ t, step s = .next t ∧
      Defines s t (s.pc + 1) (Reg.ofBits (bits ir 11 9))
        (getReg s (Reg.ofBits (bits ir 8 6)) + getReg s (Reg.ofBits (bits ir 2 0)))

/-- ADD, immediate form (R131). -/
def Obligations.AddImmediateRule : Prop :=
  ∀ (s : State) (ir : Word), s.run = .running → loadWord s s.pc = ir → bits ir 15 12 = 1 → bits ir 5 5 = 1 →
    ∃ t, step s = .next t ∧
      Defines s t (s.pc + 1) (Reg.ofBits (bits ir 11 9))
        (getReg s (Reg.ofBits (bits ir 8 6)) + sext16 (bits ir 4 0))

/-- AND, register form (R132). -/
def Obligations.AndRegisterRule : Prop :=
  ∀ (s : State) (ir : Word), s.run = .running → loadWord s s.pc = ir → bits ir 15 12 = 5 → bits ir 5 5 = 0 →
    ∃ t, step s = .next t ∧
      Defines s t (s.pc + 1) (Reg.ofBits (bits ir 11 9))
        (getReg s (Reg.ofBits (bits ir 8 6)) &&& getReg s (Reg.ofBits (bits ir 2 0)))

/-- AND, immediate form (R133). -/
def Obligations.AndImmediateRule : Prop :=
  ∀ (s : State) (ir : Word), s.run = .running → loadWord s s.pc = ir → bits ir 15 12 = 5 → bits ir 5 5 = 1 →
    ∃ t, step s = .next t ∧
      Defines s t (s.pc + 1) (Reg.ofBits (bits ir 11 9))
        (getReg s (Reg.ofBits (bits ir 8 6)) &&& sext16 (bits ir 4 0))

/-- NOT (R134). That `ir[5:0]` is ignored is the spec's own decision (D2; log 10). -/
def Obligations.NotRule : Prop :=
  ∀ (s : State) (ir : Word), s.run = .running → loadWord s s.pc = ir → bits ir 15 12 = 9 →
    ∃ t, step s = .next t ∧
      Defines s t (s.pc + 1) (Reg.ofBits (bits ir 11 9)) (0xFFFF - getReg s (Reg.ofBits (bits ir 8 6)))

/-! ### Loads, stores, load effective address (spec/42_data_movement.md) -/

/-- LD, LDI, LDR and LEA complete on all operands (R140, R142, R144, R146). It rests on the spec's own decisions D4 (log 12)
and D12 (log 19). -/
def Obligations.LoadsComplete : Prop :=
  ∀ (s : State) (dr base : Reg) (off9 : BitVec 9) (off6 : BitVec 6),
    (∃ t, exec (.ld dr off9) s = .next t ∧ Defines s t s.pc dr (loadWord s (s.pc + sext16 off9))) ∧
    (∃ t, exec (.ldi dr off9) s = .next t ∧ Defines s t s.pc dr (loadWord s (loadWord s (s.pc + sext16 off9)))) ∧
    (∃ t, exec (.ldr dr base off6) s = .next t ∧ Defines s t s.pc dr (loadWord s (getReg s base + sext16 off6))) ∧
    (∃ t, exec (.lea dr off9) s = .next t ∧ Defines s t s.pc dr (s.pc + sext16 off9))

/-- LD (R140). -/
def Obligations.LdRule : Prop :=
  ∀ (s : State) (ir : Word), s.run = .running → loadWord s s.pc = ir → bits ir 15 12 = 2 →
    ∃ t, step s = .next t ∧
      Defines s t (s.pc + 1) (Reg.ofBits (bits ir 11 9)) (loadWord s (s.pc + 1 + sext16 (bits ir 8 0)))

/-- LDI: the flags come from the word, not from the pointer (R142). -/
def Obligations.LdiRule : Prop :=
  ∀ (s : State) (ir : Word), s.run = .running → loadWord s s.pc = ir → bits ir 15 12 = 10 →
    ∃ t, step s = .next t ∧
      Defines s t (s.pc + 1) (Reg.ofBits (bits ir 11 9))
        (loadWord s (loadWord s (s.pc + 1 + sext16 (bits ir 8 0))))

/-- LDR (R144). -/
def Obligations.LdrRule : Prop :=
  ∀ (s : State) (ir : Word), s.run = .running → loadWord s s.pc = ir → bits ir 15 12 = 6 →
    ∃ t, step s = .next t ∧
      Defines s t (s.pc + 1) (Reg.ofBits (bits ir 11 9))
        (loadWord s (getReg s (Reg.ofBits (bits ir 8 6)) + sext16 (bits ir 5 0)))

/-- LEA (R146). -/
def Obligations.LeaRule : Prop :=
  ∀ (s : State) (ir : Word), s.run = .running → loadWord s s.pc = ir → bits ir 15 12 = 14 →
    ∃ t, step s = .next t ∧
      Defines s t (s.pc + 1) (Reg.ofBits (bits ir 11 9)) (s.pc + 1 + sext16 (bits ir 8 0))

/-- ST, STI and STR complete on all operands in canonical memory, the pointer of STI read before the write (R141, R143, R145;
R52). It rests on the spec's own decisions D4 (log 12) and D12 (log 19). -/
def Obligations.StoresComplete : Prop :=
  ∀ (s : State) (sr base : Reg) (off9 : BitVec 9) (off6 : BitVec 6), s.mem.wf = true →
    (∃ t, exec (.st sr off9) s = .next t ∧ Stores s t s.pc (pcRel9 s off9) (getReg s sr)) ∧
    (∃ t, exec (.sti sr off9) s = .next t ∧ Stores s t s.pc (indirect s off9) (getReg s sr)) ∧
    (∃ t, exec (.str sr base off6) s = .next t ∧ Stores s t s.pc (baseOff s base off6) (getReg s sr))

/-- ST (R141). -/
def Obligations.StRule : Prop :=
  ∀ (s : State) (ir : Word), s.run = .running → s.mem.wf = true → loadWord s s.pc = ir → bits ir 15 12 = 3 →
    ∃ t, step s = .next t ∧
      Stores s t (s.pc + 1) (s.pc + 1 + sext16 (bits ir 8 0)) (getReg s (Reg.ofBits (bits ir 11 9)))

/-- STI (R143). -/
def Obligations.StiRule : Prop :=
  ∀ (s : State) (ir : Word), s.run = .running → s.mem.wf = true → loadWord s s.pc = ir → bits ir 15 12 = 11 →
    ∃ t, step s = .next t ∧
      Stores s t (s.pc + 1) (loadWord s (s.pc + 1 + sext16 (bits ir 8 0))) (getReg s (Reg.ofBits (bits ir 11 9)))

/-- STR (R145). -/
def Obligations.StrRule : Prop :=
  ∀ (s : State) (ir : Word), s.run = .running → s.mem.wf = true → loadWord s s.pc = ir → bits ir 15 12 = 7 →
    ∃ t, step s = .next t ∧
      Stores s t (s.pc + 1) (getReg s (Reg.ofBits (bits ir 8 6)) + sext16 (bits ir 5 0))
        (getReg s (Reg.ofBits (bits ir 11 9)))

/-! ### Control transfer (spec/43_control.md) -/

/-- BR, JMP, JSR and JSRR complete on all operands (R160, R162, R163, R164). The order in JSRR R7 is the spec's own decision
D6 (log 8); both settings are covered. It rests on the spec's own decision D4 (log 12). -/
def Obligations.ControlTransfersComplete : Prop :=
  ∀ (s : State) (mask : BitVec 3) (off9 : BitVec 9) (off11 : BitVec 11) (base : Reg),
    (∃ t, exec (.br mask off9) s = .next t ∧
      Jumps s t (if mask &&& condOf s ≠ 0 then s.pc + sext16 off9 else s.pc)) ∧
    (∃ t, exec (.jmp base) s = .next t ∧ Jumps s t (getReg s base)) ∧
    (∃ t, exec (.jsr off11) s = .next t ∧ Calls s t (s.pc + sext16 off11) s.pc) ∧
    (∃ t, exec (.jsrr base) s = .next t ∧
      Calls s t (if base = .r7 ∧ s.params.jsrrLinkFirst = true then s.pc else getReg s base) s.pc)

/-- BR (R160): taken when n, z or p is set and its flag is set. That the mask bits line up with the flags by weight is the
spec's own inference from R26 ("The mask bits line up with the flags by weight"). It rests on the spec's own decision D4 (log
12). -/
def Obligations.BrRule : Prop :=
  ∀ (s : State) (ir : Word), s.run = .running → loadWord s s.pc = ir → bits ir 15 12 = 0 →
    ∃ t, step s = .next t ∧
      Jumps s t
        (if (bits ir 11 11 = 1 ∧ bits s.psr 2 2 = 1) ∨ (bits ir 10 10 = 1 ∧ bits s.psr 1 1 = 1) ∨
            (bits ir 9 9 = 1 ∧ bits s.psr 0 0 = 1)
          then s.pc + 1 + sext16 (bits ir 8 0) else s.pc + 1)

/-- BR after a defining result `v`: it sees N, Z or P as `v` was negative, zero or positive; mask 000 is never taken and mask
111 always (R161, R92). That mask 111 is always taken is the spec's own inference (R92). -/
def Obligations.BranchSeesTheLastResult : Prop :=
  ∀ (s : State) (dr : Reg) (v : Word) (mask : BitVec 3) (off9 : BitVec 9),
    ∃ t, exec (.br mask off9) (defineReg s dr v) = .next t ∧
      (mask = 0b000 → t.pc = s.pc) ∧
      (mask = 0b111 → t.pc = s.pc + sext16 off9) ∧
      (mask = 0b001 → t.pc = if 0 < v.toInt then s.pc + sext16 off9 else s.pc) ∧
      (mask = 0b010 → t.pc = if v.toInt = 0 then s.pc + sext16 off9 else s.pc) ∧
      (mask = 0b011 → t.pc = if 0 ≤ v.toInt then s.pc + sext16 off9 else s.pc) ∧
      (mask = 0b100 → t.pc = if v.toInt < 0 then s.pc + sext16 off9 else s.pc) ∧
      (mask = 0b101 → t.pc = if v.toInt ≠ 0 then s.pc + sext16 off9 else s.pc) ∧
      (mask = 0b110 → t.pc = if v.toInt ≤ 0 then s.pc + sext16 off9 else s.pc)

/-- JMP (R162). -/
def Obligations.JmpRule : Prop :=
  ∀ (s : State) (ir : Word), s.run = .running → loadWord s s.pc = ir → bits ir 15 12 = 12 →
    ∃ t, step s = .next t ∧ Jumps s t (getReg s (Reg.ofBits (bits ir 8 6)))

/-- JSR (R163). -/
def Obligations.JsrRule : Prop :=
  ∀ (s : State) (ir : Word), s.run = .running → loadWord s s.pc = ir → bits ir 15 12 = 4 → bits ir 11 11 = 1 →
    ∃ t, step s = .next t ∧ Calls s t (s.pc + 1 + sext16 (bits ir 10 0)) (s.pc + 1)

/-- JSRR, under either setting of JSRR_LINK_FIRST and with every base register, R7 included (R164). The parameter and its
default are the spec's own decision (D6; log 8); the statement holds for both settings. It rests on the spec's own decision D2
(log 10). -/
def Obligations.JsrrRule : Prop :=
  ∀ (s : State) (ir : Word), s.run = .running → loadWord s s.pc = ir → bits ir 15 12 = 4 → bits ir 11 11 = 0 →
    ∃ t, step s = .next t ∧
      Calls s t
        (if bits ir 8 6 = 7 then (if s.params.jsrrLinkFirst = true then s.pc + 1 else getReg s .r7)
          else getReg s (Reg.ofBits (bits ir 8 6)))
        (s.pc + 1)

/-! ### TRAP (spec/44_trap.md) -/

/-- The six routines complete: GETC and IN wherever `read_char` returns, PUTS and PUTSP wherever some word ends the string
(R177 to R183). GETC, IN, OUT and HALT do so with their whole effect; for PUTS and PUTSP it says that some bytes are written
and nothing else changes, and leaves which bytes to `PutsRule` and `PutspRule`. The spec's own decisions it rests on: the zero
high byte of GETC and IN (D9) and the flags they leave (D8; log 14), the prompt of IN (D10; log 7), the silence of HALT (D23;
log 18), the stopping rules of PUTS and PUTSP (D11; log 15). It rests on the spec's own decisions D7 (log 14) and D20 (log
18). -/
def Obligations.TrapRoutinesComplete : Prop :=
  ∀ s : State,
    (∀ c i, takeByte s.input = some (c, i) → ∃ t, exec .getc s = .next t ∧ Receives s t s.pc c i []) ∧
    (∃ t, exec .out s = .next t ∧ Writes s t s.pc [bits (getReg s .r0) 7 0]) ∧
    (∀ a, loadWord s a = 0 → ∃ t bs, exec .puts s = .next t ∧ Writes s t s.pc bs) ∧
    (∀ c i, takeByte s.input = some (c, i) →
      ∃ t, exec .inChar s = .next t ∧ Receives s t s.pc c i (s.params.inPrompt ++ [c])) ∧
    (∀ a, endsPacked (loadWord s a) → ∃ t bs, exec .putsp s = .next t ∧ Writes s t s.pc bs) ∧
    (∃ t, exec .halt s = .next t ∧ Stops s t s.pc .halted)

/-- GETC: the byte the environment returns goes to R0 with a zero high byte, nothing is echoed; where `read_char` does not
return, the machine waits in this cycle with only PC advanced (R177). The zero high byte is the spec's own decision D9 and the
unchanged flags D8 (log 14); the outcome that says the machine waits is the model's (log 4). It rests on the spec's own
decisions D2 (log 10), D7 (log 14) and D20 (log 18). -/
def Obligations.GetcRule : Prop :=
  ∀ (s : State) (ir : Word), s.run = .running → loadWord s s.pc = ir → bits ir 15 12 = 15 → bits ir 7 0 = 0x20 →
    (∀ c i, takeByte s.input = some (c, i) → ∃ t, step s = .next t ∧ Receives s t (s.pc + 1) c i []) ∧
    (takeByte s.input = none → step s = .fault (.awaitingInput { s with pc := s.pc + 1 }))

/-- OUT (R178). -/
def Obligations.OutRule : Prop :=
  ∀ (s : State) (ir : Word), s.run = .running → loadWord s s.pc = ir → bits ir 15 12 = 15 → bits ir 7 0 = 0x21 →
    ∃ t, step s = .next t ∧ Writes s t (s.pc + 1) [bits (getReg s .r0) 7 0]

/-- PUTS: where the first zero word from R0 on is the `k`-th, the low bytes of the `k` words before it are written, in order
and across the wrap at 0xFFFF; where no word of memory is zero the cycle never completes (R179). The stopping rule is the
spec's own decision D11 (log 15); the outcome that says the cycle never completes is the model's (log 5). It rests on the
spec's own decisions D2 (log 10), D7 (log 14) and D20 (log 18). -/
def Obligations.PutsRule : Prop :=
  ∀ (s : State) (ir : Word), s.run = .running → loadWord s s.pc = ir → bits ir 15 12 = 15 → bits ir 7 0 = 0x22 →
    (∀ k, k < 0x10000 → (∀ j, j < k → loadWord s (getReg s .r0 + BitVec.ofNat 16 j) ≠ 0) →
      loadWord s (getReg s .r0 + BitVec.ofNat 16 k) = 0 →
      ∃ t, step s = .next t ∧
        Writes s t (s.pc + 1)
          ((List.range k).map fun j => bits (loadWord s (getReg s .r0 + BitVec.ofNat 16 j)) 7 0)) ∧
    ((∀ a, loadWord s a ≠ 0) → step s = .fault .endlessScan)

/-- IN: the prompt, then the byte read and echoed, which goes to R0 with a zero high byte; where `read_char` does not return,
the machine waits with the prompt already written (R180). The parameter IN_PROMPT is the spec's own decision D10 (log 7), the
unchanged flags and the zero high byte are D8 and D9 (log 14); the outcome that says the machine waits is the model's (log 4).
It rests on the spec's own decisions D2 (log 10), D7 (log 14) and D20 (log 18). -/
def Obligations.InRule : Prop :=
  ∀ (s : State) (ir : Word), s.run = .running → loadWord s s.pc = ir → bits ir 15 12 = 15 → bits ir 7 0 = 0x23 →
    (∀ c i, takeByte s.input = some (c, i) →
      ∃ t, step s = .next t ∧ Receives s t (s.pc + 1) c i (s.params.inPrompt ++ [c])) ∧
    (takeByte s.input = none →
      step s = .fault (.awaitingInput { s with pc := s.pc + 1, output := s.output ++ s.params.inPrompt }))

/-- PUTSP: where the first word from R0 on with a zero byte is the `k`-th, both bytes of the `k` words before it are written,
low byte first, and of the `k`-th word its low byte unless that is the zero; where every word of memory has two non-zero bytes
the cycle never completes (R181). The stopping rule is the spec's own decision D11 (log 15); the outcome that says the cycle
never completes is the model's (log 5). It rests on the spec's own decisions D2 (log 10), D7 (log 14) and D20 (log 18). -/
def Obligations.PutspRule : Prop :=
  ∀ (s : State) (ir : Word), s.run = .running → loadWord s s.pc = ir → bits ir 15 12 = 15 → bits ir 7 0 = 0x24 →
    (∀ k, k < 0x10000 → (∀ j, j < k → ¬ endsPacked (loadWord s (getReg s .r0 + BitVec.ofNat 16 j))) →
      endsPacked (loadWord s (getReg s .r0 + BitVec.ofNat 16 k)) →
      ∃ t, step s = .next t ∧
        Writes s t (s.pc + 1)
          (((List.range k).flatMap fun j =>
              [bits (loadWord s (getReg s .r0 + BitVec.ofNat 16 j)) 7 0,
                bits (loadWord s (getReg s .r0 + BitVec.ofNat 16 j)) 15 8]) ++
            lastPacked (loadWord s (getReg s .r0 + BitVec.ofNat 16 k)))) ∧
    ((∀ a, ¬ endsPacked (loadWord s a)) → step s = .fault .endlessScan)

/-- HALT (R183). That it writes nothing is the spec's own decision D23 (log 18). It rests on the spec's own decisions D2 (log
10) and D7 (log 14). -/
def Obligations.HaltRule : Prop :=
  ∀ (s : State) (ir : Word), s.run = .running → loadWord s s.pc = ir → bits ir 15 12 = 15 → bits ir 7 0 = 0x25 →
    ∃ t, step s = .next t ∧ Stops s t (s.pc + 1) .halted

/-- TRAP with a vector that has no routine, whatever `ir[11:8]` holds (R184). -/
def Obligations.UnknownVectorRule : Prop :=
  ∀ (s : State) (ir : Word), s.run = .running → loadWord s s.pc = ir → bits ir 15 12 = 15 →
    ((bits ir 7 0).toNat < 0x20 ∨ 0x25 < (bits ir 7 0).toNat) →
    ∃ t, step s = .next t ∧ Stops s t (s.pc + 1) (.faulted ⟨.unknownTrapVector, 15, s.pc, ir⟩)

/-- A machine that waits in GETC or IN completes that cycle once the environment delivers a byte, and R0 takes it (R38, R210,
R217), as the zero-extended byte (R177, R180; the spec's own decision D9, log 14). The outcome that says the machine waits,
and that the wait is resumed by repeating the cycle, are the model's (log 4). It rests on the spec's own decision D20 (log
18). -/
def Obligations.ASuppliedByteEndsTheWait : Prop :=
  ∀ (s w : State) (b : Byte), step s = .fault (.awaitingInput w) →
    ∃ t, step (supplyInput s b) = .next t ∧ getReg t .r0 = b.setWidth 16 ∧ t.input = s.input ∧ t.pc = w.pc

/-! ### System instructions and faults (spec/45_system.md, spec/60_exceptions.md) -/

/-- RTI, the reserved opcode and TRAP with a vector that has no routine complete by taking their faults (R184, R195, R196,
R201). That RTI faults is the spec's own decision D5 (log 13), and PC after a fault is D3 (log 11). It rests on the spec's own
decision D16 (log 23). -/
def Obligations.FaultingInstructionsComplete : Prop :=
  ∀ (s : State) (low12 : BitVec 12) (ign4 : BitVec 4) (vect8 : BitVec 8),
    (∃ t, exec (.rti low12) s = .next t ∧
      Stops s t s.pc (.faulted ⟨.unsupportedRTI, 8, s.pc - 1, encode (.rti low12)⟩)) ∧
    (∃ t, exec (.res low12) s = .next t ∧
      Stops s t s.pc (.faulted ⟨.illegalOpcode, 13, s.pc - 1, encode (.res low12)⟩)) ∧
    (definedVector vect8 = false → ∃ t, exec (.trap ign4 vect8) s = .next t ∧
      Stops s t s.pc (.faulted ⟨.unknownTrapVector, 15, s.pc - 1, encode (.trap ign4 vect8)⟩))

/-- RTI, in every state of PSR bit 15 (R195). That it faults is the spec's own decision D5 (log 13). It rests on the spec's
own decisions D2 (log 10), D3 (log 11) and D16 (log 23). -/
def Obligations.RtiRule : Prop :=
  ∀ (s : State) (ir : Word), s.run = .running → loadWord s s.pc = ir → bits ir 15 12 = 8 →
    ∃ t, step s = .next t ∧ Stops s t (s.pc + 1) (.faulted ⟨.unsupportedRTI, 8, s.pc, ir⟩)

/-- The reserved opcode (R196). -/
def Obligations.ReservedOpcodeRule : Prop :=
  ∀ (s : State) (ir : Word), s.run = .running → loadWord s s.pc = ir → bits ir 15 12 = 13 →
    ∃ t, step s = .next t ∧ Stops s t (s.pc + 1) (.faulted ⟨.illegalOpcode, 13, s.pc, ir⟩)

/-! ### The whole machine (spec/10_state.md, spec/20_memory.md, spec/60_exceptions.md) -/

/-- The frame of the registers: an instruction writes no register but the one R22 gives it (R21, R22). It rests on the spec's
own decision D7 (log 14). -/
def Obligations.RegistersWrittenAsTabled : Prop :=
  ∀ (i : Instr) (s t : State) (r : Reg), i.wf = true → exec i s = .next t → writtenReg i ≠ some r →
    getReg t r = getReg s r

/-- The frame of PSR: only the seven defining instructions write the flags, they leave exactly one set, and nothing writes
bits 15:3 (R26 to R30). That GETC and IN leave the flags is the spec's own decision D8 (log 14). It rests on the spec's own
decisions D17 (log 20) and D18 (log 20). -/
def Obligations.PsrWrittenAsTabled : Prop :=
  ∀ (i : Instr) (s t : State), exec i s = .next t →
    bits t.psr 15 3 = bits s.psr 15 3 ∧
    (setsFlags i = false → t.psr = s.psr) ∧
    (setsFlags i = true → oneHot (condOf t))

/-- The program counter at the end of every cycle (R24, R120). After the three faults it is the spec's own decision D3 (log
11), and the order in JSRR R7 is D6 (log 8). It rests on the spec's own decisions D4 (log 12) and D7 (log 14). -/
def Obligations.PcAfterAsTabled : Prop :=
  ∀ (i : Instr) (s t : State), exec i s = .next t → t.pc = pcAfter i s

/-- The frame of memory: every word reads as before, except the one at the address a store computes (R52, R63). It rests on
the spec's own decision D12 (log 19). -/
def Obligations.MemoryWrittenOnlyByStores : Prop :=
  ∀ (i : Instr) (s t : State), exec i s = .next t →
    (∀ a, storeAddr i s = some a → ∀ b, b ≠ a → loadWord t b = loadWord s b) ∧
    (storeAddr i s = none → ∀ b, loadWord t b = loadWord s b)

/-- The frame of the character streams and the parameters: output is only appended to, and only by OUT, PUTS, IN and PUTSP;
input is only taken by GETC and IN; no instruction changes a parameter (R38, R39, R41, R182). It rests on the spec's own
decisions D20 (log 18) and D23 (log 18). -/
def Obligations.StreamsTouchedOnlyByRoutines : Prop :=
  ∀ (i : Instr) (s t : State), i.wf = true → exec i s = .next t →
    (∃ bs, t.output = s.output ++ bs) ∧
    (writesOutput i = false → t.output = s.output) ∧
    (readsInput i = false → t.input = s.input) ∧
    (readsInput i = true → ∃ c, takeByte s.input = some (c, t.input)) ∧
    t.params = s.params

/-- Every step keeps the machine's invariant: canonical memory, one flag set, PSR bits 15:3 zero, a fault record that fits
(R27, R28, R29, R35, R201). It rests on the spec's own decisions D3 (log 11), D16 (log 23), D17 (log 20) and D18 (log 20). -/
def Obligations.StepKeepsTheInvariant : Prop :=
  ∀ s t : State, s.Inv → step s = .next t → t.Inv

/-- The invariant holds at reset (R40). The origin and the empty image are the model's choice (log 2); the invariant does not
depend on them. It rests on the spec's own decisions D17 (log 20) and D18 (log 20). -/
def Obligations.ResetMeetsTheInvariant : Prop := State.reset.Inv

/-- Privilege is never consulted and never changed: two machines that differ only in PSR bits 15:3 take the same step and
differ afterwards only there (R27, R28, R212). It rests on the spec's own decisions D17 (log 20) and D18 (log 20). -/
def Obligations.UpperPsrBitsAreNeverSeen : Prop :=
  ∀ (s : State) (u : BitVec 13),
    step (withUpperPsr s u) =
      match step s with
      | .next t => .next (withUpperPsr t u)
      | .fault (.awaitingInput w) => .fault (.awaitingInput (withUpperPsr w u))
      | .fault .halted => .fault .halted
      | .fault (.faulted r) => .fault (.faulted r)
      | .fault .endlessScan => .fault .endlessScan
      | .refused r => .refused r

/-- Two canonical memories that read alike at every address are equal (R51; the canonical form is the model's, log 1). It
rests on the spec's own decision D12 (log 19). -/
def Obligations.CanonicalMemoriesThatReadAlikeAreEqual : Prop :=
  ∀ m n : Mem, m.wf = true → n.wf = true → (∀ a, memRead m a = memRead n a) → m = n

/-! ### Start-up and the caller (spec/70_reset_and_hazards.md) -/

/-- The start-up procedure, on an image the checks of R237 let through: the image at the origin, zero everywhere else, R0 to
R7 zero, PC the origin, PSR 0x0002, Running, no output (R232). -/
def Obligations.LoadPlacesTheImage : Prop :=
  ∀ (p : Params) (origin : Word) (image : List Word), p.wf → origin.toNat + image.length ≤ p.loadEnd →
    ∃ s, loadImage p origin image = .ok s ∧
      (∀ k (h : k < image.length), loadWord s (origin + BitVec.ofNat 16 k) = image[k]) ∧
      (∀ a : Word, a.toNat < origin.toNat ∨ origin.toNat + image.length ≤ a.toNat → loadWord s a = 0) ∧
      (∀ r, getReg s r = 0) ∧ s.pc = origin ∧ s.psr = 0x0002 ∧ s.run = .running ∧ s.output = []

/-- Every machine the loader creates meets the invariant, with the parameters it was given (R40, R232; log 7, log 16). It
rests on the spec's own decisions D17 (log 20) and D18 (log 20). -/
def Obligations.LoadedMachinesMeetTheInvariant : Prop :=
  ∀ (p : Params) (origin : Word) (image : List Word) (s : State), loadImage p origin image = .ok s →
    s.Inv ∧ s.params = p

/-- The image file: two bytes of origin, then words, each the high byte first; fewer than two bytes, an odd number of bytes
after the header and an image past LOAD_END are load errors (R236, R237). The odd length and LOAD_END are the spec's own
decisions D24 and D14 (log 16). It rests on the spec's own decision D13 (log 24). -/
def Obligations.ImageFilesAndLoadErrors : Prop :=
  ∀ (p : Params) (file : List Byte),
    (file.length < 2 → loadFile p file = .error .truncatedHeader) ∧
    (2 ≤ file.length → file.length % 2 = 1 → loadFile p file = .error .oddLength) ∧
    (∀ n, file.length = 2 * n + 2 →
      ∃ (origin : Word) (image : List Word), parseImage file = .ok (origin, image) ∧ image.length = n ∧
        origin.toNat = (file.getD 0 0).toNat * 256 + (file.getD 1 0).toNat ∧
        (∀ k, k < n → (image.getD k 0).toNat =
          (file.getD (2 * k + 2) 0).toNat * 256 + (file.getD (2 * k + 3) 0).toNat) ∧
        (p.loadEnd < origin.toNat + n → loadFile p file = .error .tooLarge) ∧
        (origin.toNat + n ≤ p.loadEnd → loadFile p file = loadImage p origin image))

/-- The caller's bounded run: it stops with a Running state exactly when that many cycles complete and leave the machine
Running; a result Halted or Faulted comes with a final state in that run state; a run without a limit has at most one result (R112, R239, R240, R241; the spec's own
decision D21, log 17). -/
def Obligations.CallerStopsOnlyBetweenCycles : Prop :=
  ∀ (limit : Nat) (s t : State),
    (runFor limit s = .stopped t ↔ Host.Core.run Sys2Proof.core limit s = .next t ∧ t.run = .running) ∧
    (runFor limit s = .halted t → t.run = .halted) ∧
    (∀ r, runFor limit s = .faulted r t → t.run = .faulted r) ∧
    (∀ r r', RunsTo s r → RunsTo s r' → r = r')
end

