-- ==== Sys2Proof/Laws/Bits.lean ====
section
/-! SUPPORT. Register numbers, opcode numbers and the fields of a concatenation (spec/30_encoding.md R81, R82, R85). -/

namespace Sys2Proof

@[simp] theorem Reg.ofBits_toBits (r : Reg) : Reg.ofBits r.toBits = r := by cases r <;> rfl

@[simp] theorem Reg.toBits_ofBits (b : BitVec 3) : (Reg.ofBits b).toBits = b := by
  revert b; decide

@[simp] theorem Opcode.ofBits_toBits (o : Opcode) : Opcode.ofBits o.toBits = o := by cases o <;> rfl

@[simp] theorem Opcode.toBits_ofBits (b : BitVec 4) : (Opcode.ofBits b).toBits = b := by
  revert b; decide

theorem Opcode.ofBits_eq_iff (b : BitVec 4) (o : Opcode) : Opcode.ofBits b = o ↔ b = o.toBits := by
  constructor
  · rintro rfl; simp
  · rintro rfl; simp

/-- The bit `i` of a field is the bit `lo + i` of the word. -/
theorem getLsbD_bits (w : Word) (hi lo : Nat) (h : lo ≤ hi ∧ hi ≤ 15) (i : Nat) :
    (bits w hi lo h).getLsbD i = (decide (i < hi - lo + 1) && w.getLsbD (lo + i)) := by
  simp [bits, BitVec.extractLsb, BitVec.getLsbD_extractLsb']

end Sys2Proof
end

