-- ==== Sys2Proof/Laws/Caller.lean ====
section
/-! SUPPORT. The equations of the caller's run and of the host's `Host.Core.run`, in the model's own names
(spec/40_cycle_and_units.md R112; spec/70_reset_and_hazards.md R239). -/

namespace Sys2Proof.Machine

theorem runFor_of_halted (limit : Nat) {s : State} (h : s.run = .halted) : runFor limit s = .halted s := by
  cases limit <;> simp [runFor, h]

theorem runFor_of_faulted (limit : Nat) {s : State} {r : FaultRecord} (h : s.run = .faulted r) :
    runFor limit s = .faulted r s := by
  cases limit <;> simp [runFor, h]

theorem runFor_zero {s : State} (h : s.run = .running) : runFor 0 s = .stopped s := by
  simp [runFor, h]

theorem runFor_succ (n : Nat) {s : State} (h : s.run = .running) :
    runFor (n + 1) s =
      match step s with
      | .next s' => runFor n s'
      | .fault why => .pending why
      | .refused why => .refused why := by
  cases hs : step s <;> simp [runFor, h, hs]

/-- A result that a run reaches stays its result under every larger limit. -/
theorem runFor_mono {n m : Nat} (hnm : n ≤ m) {s : State} {r : CallerResult} (h : runFor n s = r)
    (hr : ∀ t, r ≠ .stopped t) : runFor m s = r := by
  induction n generalizing m s with
  | zero =>
    cases e : s.run with
    | running => exact absurd (h.symm.trans (runFor_zero e)) (hr s)
    | halted => rw [runFor_of_halted _ e] at h ⊢; exact h
    | faulted _ => rw [runFor_of_faulted _ e] at h ⊢; exact h
  | succ n ih =>
    obtain ⟨m, rfl⟩ := Nat.exists_eq_add_one.mpr (Nat.lt_of_lt_of_le (Nat.succ_pos n) hnm)
    cases e : s.run with
    | running =>
      rw [runFor_succ _ e] at h ⊢
      cases hs : step s with
      | next s' => rw [hs] at h; exact ih (by omega) h
      | fault _ => rw [hs] at h; exact h
      | refused _ => rw [hs] at h; exact h
    | halted => rw [runFor_of_halted _ e] at h ⊢; exact h
    | faulted _ => rw [runFor_of_faulted _ e] at h ⊢; exact h

theorem core_run_zero (s : State) : Host.Core.run Sys2Proof.core 0 s = .next s := rfl

theorem core_run_succ (n : Nat) (s : State) :
    Host.Core.run Sys2Proof.core (n + 1) s =
      match step s with
      | .next s' => Host.Core.run Sys2Proof.core n s'
      | .fault why => .fault why
      | .refused why => .refused why := by
  have h : Host.Core.step Sys2Proof.core s = step s := rfl
  cases hs : step s <;> simp [Host.Core.run, h, hs]

end Sys2Proof.Machine
end

