-- ==== Sys2Proof/Laws/Decode.lean ====
section
/-! SUPPORT. The decoder row by row (spec/30_encoding.md R85, R88): what a word decodes to, from the bits that select its
row. -/

namespace Sys2Proof

theorem decode_br {w : Word} (h : bits w 15 12 = 0) : decode w = .br (bits w 11 9) (bits w 8 0) := by
  simp [decode, Opcode.ofBits, h]

theorem decode_addReg {w : Word} (h : bits w 15 12 = 1) (h' : bits w 5 5 = 0) :
    decode w = .addReg (regHi w) (regMid w) (regLo w) := by
  simp [decode, Opcode.ofBits, h, h']

theorem decode_addImm {w : Word} (h : bits w 15 12 = 1) (h' : bits w 5 5 = 1) :
    decode w = .addImm (regHi w) (regMid w) (bits w 4 0) := by
  simp [decode, Opcode.ofBits, h, h']

theorem decode_ld {w : Word} (h : bits w 15 12 = 2) : decode w = .ld (regHi w) (bits w 8 0) := by
  simp [decode, Opcode.ofBits, h]

theorem decode_st {w : Word} (h : bits w 15 12 = 3) : decode w = .st (regHi w) (bits w 8 0) := by
  simp [decode, Opcode.ofBits, h]

theorem decode_jsr {w : Word} (h : bits w 15 12 = 4) (h' : bits w 11 11 = 1) :
    decode w = .jsr (bits w 10 0) := by
  simp [decode, Opcode.ofBits, h, h']

theorem decode_jsrr {w : Word} (h : bits w 15 12 = 4) (h' : bits w 11 11 = 0) :
    decode w = .jsrr (regMid w) := by
  simp [decode, Opcode.ofBits, h, h']

theorem decode_andReg {w : Word} (h : bits w 15 12 = 5) (h' : bits w 5 5 = 0) :
    decode w = .andReg (regHi w) (regMid w) (regLo w) := by
  simp [decode, Opcode.ofBits, h, h']

theorem decode_andImm {w : Word} (h : bits w 15 12 = 5) (h' : bits w 5 5 = 1) :
    decode w = .andImm (regHi w) (regMid w) (bits w 4 0) := by
  simp [decode, Opcode.ofBits, h, h']

theorem decode_ldr {w : Word} (h : bits w 15 12 = 6) : decode w = .ldr (regHi w) (regMid w) (bits w 5 0) := by
  simp [decode, Opcode.ofBits, h]

theorem decode_str {w : Word} (h : bits w 15 12 = 7) : decode w = .str (regHi w) (regMid w) (bits w 5 0) := by
  simp [decode, Opcode.ofBits, h]

theorem decode_rti {w : Word} (h : bits w 15 12 = 8) : decode w = .rti (bits w 11 0) := by
  simp [decode, Opcode.ofBits, h]

theorem decode_not {w : Word} (h : bits w 15 12 = 9) : decode w = .not (regHi w) (regMid w) := by
  simp [decode, Opcode.ofBits, h]

theorem decode_ldi {w : Word} (h : bits w 15 12 = 10) : decode w = .ldi (regHi w) (bits w 8 0) := by
  simp [decode, Opcode.ofBits, h]

theorem decode_sti {w : Word} (h : bits w 15 12 = 11) : decode w = .sti (regHi w) (bits w 8 0) := by
  simp [decode, Opcode.ofBits, h]

theorem decode_jmp {w : Word} (h : bits w 15 12 = 12) : decode w = .jmp (regMid w) := by
  simp [decode, Opcode.ofBits, h]

theorem decode_res {w : Word} (h : bits w 15 12 = 13) : decode w = .res (bits w 11 0) := by
  simp [decode, Opcode.ofBits, h]

theorem decode_lea {w : Word} (h : bits w 15 12 = 14) : decode w = .lea (regHi w) (bits w 8 0) := by
  simp [decode, Opcode.ofBits, h]

theorem decode_getc {w : Word} (h : bits w 15 12 = 15) (h' : bits w 7 0 = 0x20) :
    decode w = .getc := by
  simp [decode, decodeTrap, Opcode.ofBits, h, h']

theorem decode_out {w : Word} (h : bits w 15 12 = 15) (h' : bits w 7 0 = 0x21) :
    decode w = .out := by
  simp [decode, decodeTrap, Opcode.ofBits, h, h']

theorem decode_puts {w : Word} (h : bits w 15 12 = 15) (h' : bits w 7 0 = 0x22) :
    decode w = .puts := by
  simp [decode, decodeTrap, Opcode.ofBits, h, h']

theorem decode_inChar {w : Word} (h : bits w 15 12 = 15) (h' : bits w 7 0 = 0x23) :
    decode w = .inChar := by
  simp [decode, decodeTrap, Opcode.ofBits, h, h']

theorem decode_putsp {w : Word} (h : bits w 15 12 = 15) (h' : bits w 7 0 = 0x24) :
    decode w = .putsp := by
  simp [decode, decodeTrap, Opcode.ofBits, h, h']

theorem decode_halt {w : Word} (h : bits w 15 12 = 15) (h' : bits w 7 0 = 0x25) :
    decode w = .halt := by
  simp [decode, decodeTrap, Opcode.ofBits, h, h']

theorem decode_trap {w : Word} (h : bits w 15 12 = 15) (h' : definedVector (bits w 7 0) = false) :
    decode w = .trap (bits w 11 8) (bits w 7 0) := by
  simp only [definedVector, Bool.and_eq_false_iff, decide_eq_false_iff_not, Nat.not_le] at h'
  have e : decode w = decodeTrap w := by simp [decode, Opcode.ofBits, h]
  rw [e, decodeTrap]
  split <;> first | omega | rfl

/-- `Selects w i`: the bits of `w` that select a row of the opcode table select the row of `i`, and `i` holds `w`'s fields. -/
inductive Selects (w : Word) : Instr → Prop where
  | br (h : bits w 15 12 = 0) : Selects w (.br (bits w 11 9) (bits w 8 0))
  | addReg (h : bits w 15 12 = 1) (h' : bits w 5 5 = 0) : Selects w (.addReg (regHi w) (regMid w) (regLo w))
  | addImm (h : bits w 15 12 = 1) (h' : bits w 5 5 = 1) : Selects w (.addImm (regHi w) (regMid w) (bits w 4 0))
  | ld (h : bits w 15 12 = 2) : Selects w (.ld (regHi w) (bits w 8 0))
  | st (h : bits w 15 12 = 3) : Selects w (.st (regHi w) (bits w 8 0))
  | jsr (h : bits w 15 12 = 4) (h' : bits w 11 11 = 1) : Selects w (.jsr (bits w 10 0))
  | jsrr (h : bits w 15 12 = 4) (h' : bits w 11 11 = 0) : Selects w (.jsrr (regMid w))
  | andReg (h : bits w 15 12 = 5) (h' : bits w 5 5 = 0) : Selects w (.andReg (regHi w) (regMid w) (regLo w))
  | andImm (h : bits w 15 12 = 5) (h' : bits w 5 5 = 1) : Selects w (.andImm (regHi w) (regMid w) (bits w 4 0))
  | ldr (h : bits w 15 12 = 6) : Selects w (.ldr (regHi w) (regMid w) (bits w 5 0))
  | str (h : bits w 15 12 = 7) : Selects w (.str (regHi w) (regMid w) (bits w 5 0))
  | rti (h : bits w 15 12 = 8) : Selects w (.rti (bits w 11 0))
  | not (h : bits w 15 12 = 9) : Selects w (.not (regHi w) (regMid w))
  | ldi (h : bits w 15 12 = 10) : Selects w (.ldi (regHi w) (bits w 8 0))
  | sti (h : bits w 15 12 = 11) : Selects w (.sti (regHi w) (bits w 8 0))
  | jmp (h : bits w 15 12 = 12) : Selects w (.jmp (regMid w))
  | res (h : bits w 15 12 = 13) : Selects w (.res (bits w 11 0))
  | lea (h : bits w 15 12 = 14) : Selects w (.lea (regHi w) (bits w 8 0))
  | trap (h : bits w 15 12 = 15) (h' : definedVector (bits w 7 0) = false) : Selects w (.trap (bits w 11 8) (bits w 7 0))
  | getc (h : bits w 15 12 = 15) (h' : bits w 7 0 = 0x20) : Selects w (.getc)
  | out (h : bits w 15 12 = 15) (h' : bits w 7 0 = 0x21) : Selects w (.out)
  | puts (h : bits w 15 12 = 15) (h' : bits w 7 0 = 0x22) : Selects w (.puts)
  | inChar (h : bits w 15 12 = 15) (h' : bits w 7 0 = 0x23) : Selects w (.inChar)
  | putsp (h : bits w 15 12 = 15) (h' : bits w 7 0 = 0x24) : Selects w (.putsp)
  | halt (h : bits w 15 12 = 15) (h' : bits w 7 0 = 0x25) : Selects w (.halt)

theorem bit_eq_zero {b : BitVec 1} (h : ¬ b = 1) : b = 0 := by
  revert b; decide

theorem opcode_bits {w : Word} {o : Opcode} (h : Opcode.ofBits (bits w 15 12) = o) : bits w 15 12 = o.toBits :=
  (Opcode.ofBits_eq_iff _ _).mp h

/-- Everything the trap rows of the decoder can answer (spec/30_encoding.md R88, R89). -/
theorem decodeTrap_selects {w : Word} (h : bits w 15 12 = 15) : Selects w (decodeTrap w) := by
  have hv : ∀ n, n < 256 → (bits w 7 0).toNat = n → bits w 7 0 = BitVec.ofNat 8 n := fun n hn e =>
    BitVec.eq_of_toNat_eq (by rw [e, BitVec.toNat_ofNat]; omega)
  unfold decodeTrap
  split
  · exact .getc h (hv _ (by decide) ‹_›)
  · exact .out h (hv _ (by decide) ‹_›)
  · exact .puts h (hv _ (by decide) ‹_›)
  · exact .inChar h (hv _ (by decide) ‹_›)
  · exact .putsp h (hv _ (by decide) ‹_›)
  · exact .halt h (hv _ (by decide) ‹_›)
  · refine .trap h ?_
    simp only [definedVector, Bool.and_eq_false_iff, decide_eq_false_iff_not]
    grind

/-- Everything the decoder can answer (R86): each case with the bits that select it. -/
theorem decode_selects (w : Word) : Selects w (decode w) := by
  unfold decode
  split
  · exact .br (opcode_bits ‹_›)
  · split
    · exact .addImm (opcode_bits ‹_›) ‹_›
    · exact .addReg (opcode_bits ‹_›) (bit_eq_zero ‹_›)
  · exact .ld (opcode_bits ‹_›)
  · exact .st (opcode_bits ‹_›)
  · split
    · exact .jsr (opcode_bits ‹_›) ‹_›
    · exact .jsrr (opcode_bits ‹_›) (bit_eq_zero ‹_›)
  · split
    · exact .andImm (opcode_bits ‹_›) ‹_›
    · exact .andReg (opcode_bits ‹_›) (bit_eq_zero ‹_›)
  · exact .ldr (opcode_bits ‹_›)
  · exact .str (opcode_bits ‹_›)
  · exact .rti (opcode_bits ‹_›)
  · exact .not (opcode_bits ‹_›)
  · exact .ldi (opcode_bits ‹_›)
  · exact .sti (opcode_bits ‹_›)
  · exact .jmp (opcode_bits ‹_›)
  · exact .res (opcode_bits ‹_›)
  · exact .lea (opcode_bits ‹_›)
  · exact decodeTrap_selects (opcode_bits ‹_›)

end Sys2Proof
end

