-- ==== Sys2Proof/Laws/State.lean ====
section
/-! SUPPORT. One lemma per field of State per update, so that no later proof unfolds a record update. -/

namespace Sys2Proof.Machine

variable (s : State)

@[simp] theorem setReg_regs (r : Reg) (v : Word) : (setReg s r v).regs = regSet s.regs r v := rfl
@[simp] theorem setReg_pc (r : Reg) (v : Word) : (setReg s r v).pc = s.pc := rfl
@[simp] theorem setReg_psr (r : Reg) (v : Word) : (setReg s r v).psr = s.psr := rfl
@[simp] theorem setReg_mem (r : Reg) (v : Word) : (setReg s r v).mem = s.mem := rfl
@[simp] theorem setReg_run (r : Reg) (v : Word) : (setReg s r v).run = s.run := rfl
@[simp] theorem setReg_output (r : Reg) (v : Word) : (setReg s r v).output = s.output := rfl
@[simp] theorem setReg_input (r : Reg) (v : Word) : (setReg s r v).input = s.input := rfl
@[simp] theorem setReg_params (r : Reg) (v : Word) : (setReg s r v).params = s.params := rfl

@[simp] theorem setPc_regs (v : Word) : (setPc s v).regs = s.regs := rfl
@[simp] theorem setPc_pc (v : Word) : (setPc s v).pc = v := rfl
@[simp] theorem setPc_psr (v : Word) : (setPc s v).psr = s.psr := rfl
@[simp] theorem setPc_mem (v : Word) : (setPc s v).mem = s.mem := rfl
@[simp] theorem setPc_run (v : Word) : (setPc s v).run = s.run := rfl
@[simp] theorem setPc_output (v : Word) : (setPc s v).output = s.output := rfl
@[simp] theorem setPc_input (v : Word) : (setPc s v).input = s.input := rfl
@[simp] theorem setPc_params (v : Word) : (setPc s v).params = s.params := rfl

@[simp] theorem setPsr_regs (v : Word) : (setPsr s v).regs = s.regs := rfl
@[simp] theorem setPsr_pc (v : Word) : (setPsr s v).pc = s.pc := rfl
@[simp] theorem setPsr_psr (v : Word) : (setPsr s v).psr = v := rfl
@[simp] theorem setPsr_mem (v : Word) : (setPsr s v).mem = s.mem := rfl
@[simp] theorem setPsr_run (v : Word) : (setPsr s v).run = s.run := rfl
@[simp] theorem setPsr_output (v : Word) : (setPsr s v).output = s.output := rfl
@[simp] theorem setPsr_input (v : Word) : (setPsr s v).input = s.input := rfl
@[simp] theorem setPsr_params (v : Word) : (setPsr s v).params = s.params := rfl

@[simp] theorem storeWord_regs (a v : Word) : (storeWord s a v).regs = s.regs := rfl
@[simp] theorem storeWord_pc (a v : Word) : (storeWord s a v).pc = s.pc := rfl
@[simp] theorem storeWord_psr (a v : Word) : (storeWord s a v).psr = s.psr := rfl
@[simp] theorem storeWord_mem (a v : Word) : (storeWord s a v).mem = memWrite s.mem a v := rfl
@[simp] theorem storeWord_run (a v : Word) : (storeWord s a v).run = s.run := rfl
@[simp] theorem storeWord_output (a v : Word) : (storeWord s a v).output = s.output := rfl
@[simp] theorem storeWord_input (a v : Word) : (storeWord s a v).input = s.input := rfl
@[simp] theorem storeWord_params (a v : Word) : (storeWord s a v).params = s.params := rfl

@[simp] theorem setRun_regs (v : RunState) : (setRun s v).regs = s.regs := rfl
@[simp] theorem setRun_pc (v : RunState) : (setRun s v).pc = s.pc := rfl
@[simp] theorem setRun_psr (v : RunState) : (setRun s v).psr = s.psr := rfl
@[simp] theorem setRun_mem (v : RunState) : (setRun s v).mem = s.mem := rfl
@[simp] theorem setRun_run (v : RunState) : (setRun s v).run = v := rfl
@[simp] theorem setRun_output (v : RunState) : (setRun s v).output = s.output := rfl
@[simp] theorem setRun_input (v : RunState) : (setRun s v).input = s.input := rfl
@[simp] theorem setRun_params (v : RunState) : (setRun s v).params = s.params := rfl

@[simp] theorem writeChars_regs (bs : List Byte) : (writeChars s bs).regs = s.regs := rfl
@[simp] theorem writeChars_pc (bs : List Byte) : (writeChars s bs).pc = s.pc := rfl
@[simp] theorem writeChars_psr (bs : List Byte) : (writeChars s bs).psr = s.psr := rfl
@[simp] theorem writeChars_mem (bs : List Byte) : (writeChars s bs).mem = s.mem := rfl
@[simp] theorem writeChars_run (bs : List Byte) : (writeChars s bs).run = s.run := rfl
@[simp] theorem writeChars_output (bs : List Byte) : (writeChars s bs).output = s.output ++ bs := rfl
@[simp] theorem writeChars_input (bs : List Byte) : (writeChars s bs).input = s.input := rfl
@[simp] theorem writeChars_params (bs : List Byte) : (writeChars s bs).params = s.params := rfl

@[simp] theorem setInput_regs (v : InputStream) : (setInput s v).regs = s.regs := rfl
@[simp] theorem setInput_pc (v : InputStream) : (setInput s v).pc = s.pc := rfl
@[simp] theorem setInput_psr (v : InputStream) : (setInput s v).psr = s.psr := rfl
@[simp] theorem setInput_mem (v : InputStream) : (setInput s v).mem = s.mem := rfl
@[simp] theorem setInput_run (v : InputStream) : (setInput s v).run = s.run := rfl
@[simp] theorem setInput_output (v : InputStream) : (setInput s v).output = s.output := rfl
@[simp] theorem setInput_input (v : InputStream) : (setInput s v).input = v := rfl
@[simp] theorem setInput_params (v : InputStream) : (setInput s v).params = s.params := rfl

@[simp] theorem writeChar_regs (b : Byte) : (writeChar s b).regs = s.regs := rfl
@[simp] theorem writeChar_pc (b : Byte) : (writeChar s b).pc = s.pc := rfl
@[simp] theorem writeChar_psr (b : Byte) : (writeChar s b).psr = s.psr := rfl
@[simp] theorem writeChar_mem (b : Byte) : (writeChar s b).mem = s.mem := rfl
@[simp] theorem writeChar_run (b : Byte) : (writeChar s b).run = s.run := rfl
@[simp] theorem writeChar_output (b : Byte) : (writeChar s b).output = s.output ++ [b] := rfl
@[simp] theorem writeChar_input (b : Byte) : (writeChar s b).input = s.input := rfl
@[simp] theorem writeChar_params (b : Byte) : (writeChar s b).params = s.params := rfl

@[simp] theorem advancePc_regs : (advancePc s).regs = s.regs := rfl
@[simp] theorem advancePc_pc : (advancePc s).pc = s.pc + 1 := rfl
@[simp] theorem advancePc_psr : (advancePc s).psr = s.psr := rfl
@[simp] theorem advancePc_mem : (advancePc s).mem = s.mem := rfl
@[simp] theorem advancePc_run : (advancePc s).run = s.run := rfl
@[simp] theorem advancePc_output : (advancePc s).output = s.output := rfl
@[simp] theorem advancePc_input : (advancePc s).input = s.input := rfl
@[simp] theorem advancePc_params : (advancePc s).params = s.params := rfl

/-! The same through the accessors. -/

@[simp] theorem getReg_setPc (v : Word) (r : Reg) : getReg (setPc s v) r = getReg s r := rfl
@[simp] theorem getReg_setPsr (v : Word) (r : Reg) : getReg (setPsr s v) r = getReg s r := rfl
@[simp] theorem getReg_storeWord (a v : Word) (r : Reg) : getReg (storeWord s a v) r = getReg s r := rfl
@[simp] theorem getReg_setRun (v : RunState) (r : Reg) : getReg (setRun s v) r = getReg s r := rfl
@[simp] theorem getReg_writeChars (bs : List Byte) (r : Reg) : getReg (writeChars s bs) r = getReg s r := rfl
@[simp] theorem getReg_writeChar (b : Byte) (r : Reg) : getReg (writeChar s b) r = getReg s r := rfl
@[simp] theorem getReg_setInput (v : InputStream) (r : Reg) : getReg (setInput s v) r = getReg s r := rfl
@[simp] theorem getReg_advancePc (r : Reg) : getReg (advancePc s) r = getReg s r := rfl

@[simp] theorem loadWord_setReg (r : Reg) (v a : Word) : loadWord (setReg s r v) a = loadWord s a := rfl
@[simp] theorem loadWord_setPc (v a : Word) : loadWord (setPc s v) a = loadWord s a := rfl
@[simp] theorem loadWord_setPsr (v a : Word) : loadWord (setPsr s v) a = loadWord s a := rfl
@[simp] theorem loadWord_setRun (v : RunState) (a : Word) : loadWord (setRun s v) a = loadWord s a := rfl
@[simp] theorem loadWord_writeChars (bs : List Byte) (a : Word) : loadWord (writeChars s bs) a = loadWord s a := rfl
@[simp] theorem loadWord_writeChar (b : Byte) (a : Word) : loadWord (writeChar s b) a = loadWord s a := rfl
@[simp] theorem loadWord_setInput (v : InputStream) (a : Word) : loadWord (setInput s v) a = loadWord s a := rfl
@[simp] theorem loadWord_advancePc (a : Word) : loadWord (advancePc s) a = loadWord s a := rfl

end Sys2Proof.Machine
end

