-- ==== Sys2Proof/Laws/Registers.lean ====
section
/-! SUPPORT. Reading the register file after a write (spec/10_state.md R20: no bank, no alias, no hard-wired register). -/

namespace Sys2Proof.Machine

@[simp] theorem regGet_regSet_self (rs : Regs) (r : Reg) (v : Word) : regGet (regSet rs r v) r = v := by
  cases r <;> rfl

theorem regGet_regSet_ne (rs : Regs) {r q : Reg} (v : Word) (h : q ≠ r) :
    regGet (regSet rs r v) q = regGet rs q := by
  cases r <;> cases q <;> first | rfl | exact absurd rfl h

@[simp] theorem getReg_setReg_self (s : State) (r : Reg) (v : Word) : getReg (setReg s r v) r = v :=
  regGet_regSet_self s.regs r v

theorem getReg_setReg_ne (s : State) {r q : Reg} (v : Word) (h : q ≠ r) :
    getReg (setReg s r v) q = getReg s q :=
  regGet_regSet_ne s.regs v h

theorem getReg_setReg (s : State) (r q : Reg) (v : Word) :
    getReg (setReg s r v) q = if q = r then v else getReg s q := by
  split
  · subst q; simp
  · exact getReg_setReg_ne s v ‹_›

end Sys2Proof.Machine
end

