-- ==== Sys2Proof/Laws/Flags.lean ====
section
/-! SUPPORT. The condition-code unit (spec/40_cycle_and_units.md R115, R116): what `setcc` writes and what it keeps. -/

namespace Sys2Proof.Machine

@[simp] theorem bits_withCc_upper (p : Word) (c : BitVec 3) : bits (withCc p c) 15 3 = bits p 15 3 := by
  unfold withCc
  ext i hi
  simp only [← BitVec.getLsbD_eq_getElem, getLsbD_bits, BitVec.getLsbD_append]
  simp

@[simp] theorem bits_withCc_lower (p : Word) (c : BitVec 3) : bits (withCc p c) 2 0 = c := by
  unfold withCc
  ext i hi
  simp only [← BitVec.getLsbD_eq_getElem, getLsbD_bits, BitVec.getLsbD_append]
  simp [hi]

/-- A flag bit of PSR is the same bit of the three-bit code. -/
theorem bits_flag (p : Word) (i : Nat) (h : i ≤ 2) :
    bits p i i ⟨Nat.le_refl i, by omega⟩ = 1 ↔ (bits p 2 0).getLsbD i = true := by
  rw [getLsbD_bits]
  constructor
  · intro e
    have := congrArg (BitVec.getLsbD · 0) e
    rw [getLsbD_bits] at this
    simp at this
    simp [this]; omega
  · intro e
    apply BitVec.eq_of_getLsbD_eq
    intro j hj
    obtain rfl : j = 0 := by omega
    rw [getLsbD_bits]
    simp at e
    simp [e.2]

/-- Bit 15 of a word is its sign, read as a number. -/
theorem bit15_iff (v : Word) : bits v 15 15 = 1 ↔ 0x8000 ≤ v.toNat := by
  have hv := v.isLt
  rw [← BitVec.toNat_inj]
  simp [bits, BitVec.extractLsb, Nat.shiftRight_eq_div_pow]
  omega

/-- The three classes of a value and their codes (R115). -/
theorem ccOf_cases (v : Word) :
    (0x8000 ≤ v.toNat ∧ v ≠ 0 ∧ ccOf v = 0b100) ∨ (v = 0 ∧ v.toNat < 0x8000 ∧ ccOf v = 0b010) ∨
      (v.toNat < 0x8000 ∧ v ≠ 0 ∧ ccOf v = 0b001) := by
  unfold ccOf
  by_cases h : bits v 15 15 = 1
  · have h' := (bit15_iff v).mp h
    refine .inl ⟨h', ?_, if_pos h⟩
    rintro rfl
    simp at h'
  · have h' : v.toNat < 0x8000 := Nat.lt_of_not_le fun hle => h ((bit15_iff v).mpr hle)
    by_cases h0 : v = 0
    · exact .inr (.inl ⟨h0, h', by rw [if_neg h, if_pos h0]⟩)
    · exact .inr (.inr ⟨h', h0, by rw [if_neg h, if_neg h0]⟩)

theorem oneHot_ccOf (v : Word) : oneHot (ccOf v) := by
  obtain h | h | h := ccOf_cases v
  · exact .inl h.2.2
  · exact .inr (.inl h.2.2)
  · exact .inr (.inr h.2.2)

/-- `setcc(v)` leaves the flags of `v` (R115). -/
theorem flagsDescribe_withCc (p v : Word) : FlagsDescribe (withCc p (ccOf v)) v := by
  constructor
  · rw [bits_flag _ 2 (by omega), bits_withCc_lower]
    obtain ⟨h, _, e⟩ | ⟨_, h, e⟩ | ⟨h, _, e⟩ := ccOf_cases v <;> simp [e, h]
  · rw [bits_flag _ 1 (by omega), bits_withCc_lower]
    obtain ⟨_, h, e⟩ | ⟨h, _, e⟩ | ⟨_, h, e⟩ := ccOf_cases v <;> rw [e] <;> simpa using h
  · rw [bits_flag _ 0 (by omega), bits_withCc_lower]
    obtain ⟨h, _, e⟩ | ⟨h0, _, e⟩ | ⟨h, h0, e⟩ := ccOf_cases v <;> rw [e]
    · simp [h]
    · simp [h0]
    · simpa [h] using h0

@[simp] theorem condOf_setcc (s : State) (v : Word) : condOf (setcc s v) = ccOf v := bits_withCc_lower s.psr (ccOf v)

/-! The fields of a state after `setcc` and after a defining instruction. -/

@[simp] theorem setcc_regs (s : State) (v : Word) : (setcc s v).regs = s.regs := rfl
@[simp] theorem setcc_pc (s : State) (v : Word) : (setcc s v).pc = s.pc := rfl
@[simp] theorem setcc_psr (s : State) (v : Word) : (setcc s v).psr = withCc s.psr (ccOf v) := rfl
@[simp] theorem setcc_mem (s : State) (v : Word) : (setcc s v).mem = s.mem := rfl
@[simp] theorem setcc_run (s : State) (v : Word) : (setcc s v).run = s.run := rfl
@[simp] theorem setcc_output (s : State) (v : Word) : (setcc s v).output = s.output := rfl
@[simp] theorem setcc_input (s : State) (v : Word) : (setcc s v).input = s.input := rfl
@[simp] theorem setcc_params (s : State) (v : Word) : (setcc s v).params = s.params := rfl
@[simp] theorem defineReg_regs (s : State) (dr : Reg) (v : Word) : (defineReg s dr v).regs = regSet s.regs dr v := rfl
@[simp] theorem defineReg_pc (s : State) (dr : Reg) (v : Word) : (defineReg s dr v).pc = s.pc := rfl
@[simp] theorem defineReg_psr (s : State) (dr : Reg) (v : Word) : (defineReg s dr v).psr = withCc s.psr (ccOf v) := rfl
@[simp] theorem defineReg_mem (s : State) (dr : Reg) (v : Word) : (defineReg s dr v).mem = s.mem := rfl
@[simp] theorem defineReg_run (s : State) (dr : Reg) (v : Word) : (defineReg s dr v).run = s.run := rfl
@[simp] theorem defineReg_output (s : State) (dr : Reg) (v : Word) : (defineReg s dr v).output = s.output := rfl
@[simp] theorem defineReg_input (s : State) (dr : Reg) (v : Word) : (defineReg s dr v).input = s.input := rfl
@[simp] theorem defineReg_params (s : State) (dr : Reg) (v : Word) : (defineReg s dr v).params = s.params := rfl

@[simp] theorem loadWord_defineReg (s : State) (dr : Reg) (v a : Word) : loadWord (defineReg s dr v) a = loadWord s a := rfl

@[simp] theorem condOf_defineReg (s : State) (dr : Reg) (v : Word) : condOf (defineReg s dr v) = ccOf v :=
  bits_withCc_lower s.psr (ccOf v)

/-- Everything a defining instruction's last two steps do (R116). -/
theorem defineReg_defines (s : State) (dr : Reg) (v : Word) : Defines s (defineReg s dr v) s.pc dr v where
  result := getReg_setReg_self s dr v
  flags := flagsDescribe_withCc s.psr v
  pc := rfl
  otherRegs _ h := getReg_setReg_ne s v h
  psrRest := bits_withCc_upper s.psr (ccOf v)
  mem _ := rfl
  rest := ⟨rfl, rfl, rfl, rfl⟩

end Sys2Proof.Machine
end

