-- ==== Sys2Proof/Laws/Memory.lean ====
section
/-! SUPPORT. Memory: a read after a write (spec/20_memory.md R51, R52), and that every memory operation keeps the canonical
form. -/

namespace Sys2Proof.Machine

/-! ### The canonical form -/

theorem memWfFrom_mono {lo lo' : Nat} {m : Mem} (h : memWfFrom lo m = true) (hle : lo' ≤ lo) :
    memWfFrom lo' m = true := by
  cases m with
  | nil => rfl
  | cons c m =>
    obtain ⟨a, v⟩ := c
    simp only [memWfFrom, Bool.and_eq_true, decide_eq_true_eq] at h ⊢
    exact ⟨⟨⟨by omega, h.1.1.2⟩, h.1.2⟩, h.2⟩

theorem memWfFrom_memCons {lo a : Nat} {v : Word} {m : Mem} (hlo : lo ≤ a) (ha : a < 0x10000)
    (h : memWfFrom (a + 1) m = true) : memWfFrom lo (memCons a v m) = true := by
  unfold memCons
  split
  · exact memWfFrom_mono h (by omega)
  · simp_all [memWfFrom]

theorem memWfFrom_memWriteAt {a : Nat} {v : Word} (ha : a < 0x10000) :
    ∀ {lo : Nat} {m : Mem}, lo ≤ a → memWfFrom lo m = true → memWfFrom lo (memWriteAt m a v) = true
  | _, [], hlo, _ => memWfFrom_memCons hlo ha rfl
  | lo, (b, w) :: m, hlo, h => by
    simp only [memWfFrom, Bool.and_eq_true, decide_eq_true_eq] at h
    unfold memWriteAt
    split
    · exact memWfFrom_memCons hlo ha (by simp_all [memWfFrom])
    · split
      · subst b; exact memWfFrom_memCons hlo ha h.2
      · simp only [memWfFrom, Bool.and_eq_true, decide_eq_true_eq]
        exact ⟨h.1, memWfFrom_memWriteAt ha (by omega) h.2⟩

/-- A write keeps the canonical form. -/
theorem memWrite_wf {m : Mem} (h : m.wf = true) (a v : Word) : (memWrite m a v).wf = true :=
  memWfFrom_memWriteAt a.isLt (Nat.zero_le _) h

theorem storeWord_wf {s : State} (h : s.mem.wf = true) (a v : Word) : (storeWord s a v).mem.wf = true :=
  memWrite_wf h a v

/-! ### Reading after a write -/

/-- Nothing is listed below the lower bound of a canonical list. -/
theorem memReadAt_below {lo : Nat} {m : Mem} (h : memWfFrom lo m = true) {a : Nat} (ha : a < lo) :
    memReadAt m a = unlistedWord := by
  induction m generalizing lo with
  | nil => rfl
  | cons c m ih =>
    obtain ⟨b, w⟩ := c
    simp only [memWfFrom, Bool.and_eq_true, decide_eq_true_eq] at h
    rw [memReadAt, if_neg (by omega)]
    exact ih h.2 (by omega)

theorem memReadAt_memCons_self {a : Nat} {v : Word} {m : Mem} (h : memReadAt m a = unlistedWord) :
    memReadAt (memCons a v m) a = v := by
  unfold memCons
  split
  · simp_all
  · simp [memReadAt]

theorem memReadAt_memCons_ne {a b : Nat} (v : Word) (m : Mem) (h : b ≠ a) :
    memReadAt (memCons a v m) b = memReadAt m b := by
  unfold memCons
  split
  · rfl
  · simp [memReadAt, h]

theorem memReadAt_memWriteAt_self {a : Nat} {v : Word} :
    ∀ {lo : Nat} {m : Mem}, memWfFrom lo m = true → memReadAt (memWriteAt m a v) a = v
  | _, [], _ => memReadAt_memCons_self rfl
  | lo, (b, w) :: m, h => by
    have h' := h
    simp only [memWfFrom, Bool.and_eq_true, decide_eq_true_eq] at h
    unfold memWriteAt
    split
    · refine memReadAt_memCons_self ?_
      rw [memReadAt, if_neg (by omega)]
      exact memReadAt_below h.2 (by omega)
    · split
      · subst b; exact memReadAt_memCons_self (memReadAt_below h.2 (by omega))
      · rw [memReadAt, if_neg ‹_›]
        exact memReadAt_memWriteAt_self h.2

theorem memReadAt_memWriteAt_ne {a b : Nat} (v : Word) (hb : b ≠ a) :
    ∀ m : Mem, memReadAt (memWriteAt m a v) b = memReadAt m b
  | [] => memReadAt_memCons_ne v [] hb
  | (c, w) :: m => by
    unfold memWriteAt
    split
    · exact memReadAt_memCons_ne v _ hb
    · split
      · subst c; rw [memReadAt_memCons_ne v _ hb, memReadAt, if_neg hb]
      · rw [memReadAt, memReadAt, memReadAt_memWriteAt_ne v hb m]

/-- A read of the address just written gives the value written. -/
theorem memRead_memWrite_self {m : Mem} (h : m.wf = true) (a v : Word) : memRead (memWrite m a v) a = v :=
  memReadAt_memWriteAt_self h

/-- A write leaves every other address alone. -/
theorem memRead_memWrite_ne (m : Mem) {a b : Word} (v : Word) (h : b ≠ a) :
    memRead (memWrite m a v) b = memRead m b :=
  memReadAt_memWriteAt_ne v (fun e => h (BitVec.eq_of_toNat_eq e)) m

theorem loadWord_storeWord_self {s : State} (h : s.mem.wf = true) (a v : Word) : loadWord (storeWord s a v) a = v :=
  memRead_memWrite_self h a v

theorem loadWord_storeWord_ne (s : State) {a b : Word} (v : Word) (h : b ≠ a) :
    loadWord (storeWord s a v) b = loadWord s b :=
  memRead_memWrite_ne s.mem v h

@[simp] theorem memRead_nil (a : Word) : memRead [] a = 0 := rfl

end Sys2Proof.Machine
end

