-- ==== Sys2Proof/Laws/Trap.lean ====
section
/-! SUPPORT. The character streams and the two string scans (spec/10_state.md R38; spec/44_trap.md R179, R181). -/

namespace Sys2Proof.Machine

/-- Everything one `read_char` call can do: it takes a byte, and only the input stream changes. -/
theorem readChar_eq_some {s s' : State} {c : Byte} (h : readChar s = some (c, s')) :
    ∃ i, takeByte s.input = some (c, i) ∧ s' = setInput s i := by
  unfold readChar at h
  split at h
  · next b i e =>
    obtain ⟨rfl, rfl⟩ := Prod.mk.injEq _ _ _ _ ▸ Option.some.inj h
    exact ⟨i, e, rfl⟩
  · cases h

theorem readChar_of_takeByte {s : State} {c : Byte} {i : InputStream} (h : takeByte s.input = some (c, i)) :
    readChar s = some (c, setInput s i) := by
  simp [readChar, h]

/-- A `read_char` call does not return exactly when the environment has nothing ready and stays silent. -/
theorem takeByte_eq_none (i : InputStream) : takeByte i = none ↔ i.ready = [] ∧ i.tail = .silent := by
  unfold takeByte
  split <;> simp_all

theorem readChar_eq_none (s : State) : readChar s = none ↔ takeByte s.input = none := by
  unfold readChar
  split <;> simp_all

/-- The address of the `k`-th word of a scan (R53). -/
theorem scanAddr_succ (a : Word) (k : Nat) : a + 1 + BitVec.ofNat 16 k = a + BitVec.ofNat 16 (k + 1) := by
  rw [BitVec.add_assoc, Nat.add_comm k 1, BitVec.ofNat_add]
  rfl

/-- A scan that never ends visits every word of memory. -/
theorem scanAddr_reaches (a b : Word) : ∃ k, k < scanBound ∧ a + BitVec.ofNat 16 k = b :=
  ⟨(b - a).toNat, (b - a).isLt, by
    rw [BitVec.ofNat_toNat, BitVec.setWidth_eq, BitVec.add_comm, BitVec.sub_add_cancel]⟩

/-- PUTS's scan, where the first zero word is the `k`-th from `a` (R179). -/
theorem putsScan_eq_some {m : Mem} {k fuel : Nat} {a : Word} (hk : k < fuel)
    (h : ∀ i, i < k → memRead m (a + BitVec.ofNat 16 i) ≠ 0) (hz : memRead m (a + BitVec.ofNat 16 k) = 0) :
    putsScan fuel m a = some ((List.range k).map fun i => lowByte (memRead m (a + BitVec.ofNat 16 i))) := by
  induction k generalizing a fuel with
  | zero =>
    obtain ⟨fuel, rfl⟩ := Nat.exists_eq_add_one.mpr hk
    have : memRead m a = 0 := by simpa using hz
    simp [putsScan, this]
  | succ k ih =>
    obtain ⟨fuel, rfl⟩ := Nat.exists_eq_add_one.mpr (Nat.lt_of_le_of_lt (Nat.zero_le _) hk)
    have h0 : memRead m a ≠ 0 := by simpa using h 0 (by omega)
    rw [putsScan, if_neg h0, ih (by omega) (fun i hi => by rw [scanAddr_succ]; exact h (i + 1) (by omega))
      (by rw [scanAddr_succ]; exact hz), List.range_succ_eq_map]
    simp only [scanAddr_succ]
    simp [Function.comp_def]

/-- PUTS's scan finds nothing exactly when none of the words it visits is zero (R179). -/
theorem putsScan_eq_none {m : Mem} {fuel : Nat} {a : Word} :
    putsScan fuel m a = none ↔ ∀ i, i < fuel → memRead m (a + BitVec.ofNat 16 i) ≠ 0 := by
  induction fuel generalizing a with
  | zero => simp [putsScan]
  | succ fuel ih =>
    rw [putsScan]
    split
    · next h => simpa using ⟨0, by omega, by simpa using h⟩
    · next h =>
      rw [Option.map_eq_none_iff, ih]
      constructor
      · intro H i hi
        cases i with
        | zero => simpa using h
        | succ i => rw [← scanAddr_succ]; exact H i (by omega)
      · intro H i hi
        rw [scanAddr_succ]; exact H (i + 1) (by omega)

/-- PUTSP's scan, where the first word with a zero byte is the `k`-th from `a` (R181). -/
theorem putspScan_eq_some {m : Mem} {k fuel : Nat} {a : Word} (hk : k < fuel)
    (h : ∀ i, i < k → ¬ endsPacked (memRead m (a + BitVec.ofNat 16 i)))
    (hz : endsPacked (memRead m (a + BitVec.ofNat 16 k))) :
    putspScan fuel m a = some (((List.range k).flatMap fun i =>
      [lowByte (memRead m (a + BitVec.ofNat 16 i)), highByte (memRead m (a + BitVec.ofNat 16 i))]) ++
        lastPacked (memRead m (a + BitVec.ofNat 16 k))) := by
  induction k generalizing a fuel with
  | zero =>
    obtain ⟨fuel, rfl⟩ := Nat.exists_eq_add_one.mpr hk
    have hz' : endsPacked (memRead m a) := by simpa using hz
    unfold putspScan
    split
    · simp_all [lastPacked]
    · next hl =>
      rw [if_pos (hz'.resolve_left hl)]
      simp_all [lastPacked]
  | succ k ih =>
    obtain ⟨fuel, rfl⟩ := Nat.exists_eq_add_one.mpr (Nat.lt_of_le_of_lt (Nat.zero_le _) hk)
    have h0 : ¬ endsPacked (memRead m a) := by simpa using h 0 (by omega)
    rw [putspScan, if_neg (fun e => h0 (.inl e)), if_neg (fun e => h0 (.inr e)),
      ih (by omega) (fun i hi => by rw [scanAddr_succ]; exact h (i + 1) (by omega))
      (by rw [scanAddr_succ]; exact hz), List.range_succ_eq_map]
    simp only [scanAddr_succ]
    simp [List.flatMap_map]

/-- PUTSP's scan finds nothing exactly when none of the words it visits has a zero byte (R181). -/
theorem putspScan_eq_none {m : Mem} {fuel : Nat} {a : Word} :
    putspScan fuel m a = none ↔ ∀ i, i < fuel → ¬ endsPacked (memRead m (a + BitVec.ofNat 16 i)) := by
  induction fuel generalizing a with
  | zero => simp [putspScan]
  | succ fuel ih =>
    by_cases h0 : endsPacked (memRead m a)
    · have hn : putspScan (fuel + 1) m a ≠ none := by
        unfold putspScan
        split
        · simp
        · next hl => rw [if_pos (h0.resolve_left hl)]; simp
      simp only [hn, false_iff]
      intro H
      exact H 0 (by omega) (by simpa using h0)
    · rw [putspScan, if_neg (fun e => h0 (.inl e)), if_neg (fun e => h0 (.inr e)), Option.map_eq_none_iff, ih]
      constructor
      · intro H i hi
        cases i with
        | zero => simpa using h0
        | succ i => rw [← scanAddr_succ]; exact H i (by omega)
      · intro H i hi
        rw [scanAddr_succ]; exact H (i + 1) (by omega)

end Sys2Proof.Machine
end

