-- ==== Sys2Proof/Laws/Effects.lean ====
section
/-! SUPPORT. Once for each shared operation, everything it does, in the words of Safety.lean; provers cite these and do not
unfold the operation. `defineReg` has its lemma in Laws/Flags.lean. -/

namespace Sys2Proof.Machine

theorem sameRest_refl (s : State) : SameRest s s := ⟨rfl, rfl, rfl, rfl⟩

/-- A store in canonical memory (spec/20_memory.md R52). -/
theorem storeWord_stores {s : State} (h : s.mem.wf = true) (a v : Word) : Stores s (storeWord s a v) s.pc a v where
  stored := loadWord_storeWord_self h a v
  pc := rfl
  otherWords _ hb := loadWord_storeWord_ne s v hb
  regs _ := rfl
  psr := rfl
  rest := ⟨rfl, rfl, rfl, rfl⟩

/-- A jump. -/
theorem setPc_jumps (s : State) (v : Word) : Jumps s (setPc s v) v where
  pc := rfl
  regs _ := rfl
  psr := rfl
  mem _ := rfl
  rest := ⟨rfl, rfl, rfl, rfl⟩

/-- A branch that is not taken. -/
theorem jumps_refl (s : State) : Jumps s s s.pc := ⟨rfl, fun _ => rfl, rfl, fun _ => rfl, sameRest_refl s⟩

/-- A call (spec/43_control.md R163). -/
theorem setPc_linkR7_calls (s : State) (v : Word) : Calls s (setPc (linkR7 s) v) v s.pc where
  pc := rfl
  link := getReg_setReg_self s .r7 s.pc
  otherRegs _ h := getReg_setReg_ne s s.pc h
  psr := rfl
  mem _ := rfl
  rest := ⟨rfl, rfl, rfl, rfl⟩

/-- A call through a register, under either setting of JSRR_LINK_FIRST (R164). -/
theorem jumpLinked_calls (b : Bool) (base : Reg) (s : State) :
    Calls s (jumpLinked b base s) (if base = .r7 ∧ b = true then s.pc else getReg s base) s.pc := by
  have key : jumpLinked b base s = setPc (linkR7 s) (if base = .r7 ∧ b = true then s.pc else getReg s base) := by
    cases b
    · simp [jumpLinked]
    · simp [jumpLinked, linkR7, getReg_setReg]
  rw [key]
  exact setPc_linkR7_calls s _

/-- Characters written (spec/10_state.md R39). -/
theorem writeChars_writes (s : State) (bs : List Byte) : Writes s (writeChars s bs) s.pc bs :=
  ⟨rfl, rfl, fun _ => rfl, rfl, fun _ => rfl, rfl, rfl, rfl⟩

/-- Writing no character changes nothing. -/
@[simp] theorem writeChars_nil (s : State) : writeChars s [] = s := by
  simp [writeChars]

/-- The run state changed (spec/44_trap.md R183). -/
theorem setRun_stops (s : State) (run' : RunState) : Stops s (setRun s run') s.pc run' :=
  ⟨rfl, rfl, fun _ => rfl, rfl, fun _ => rfl, rfl, rfl, rfl⟩

/-- A fault raised (spec/60_exceptions.md R201). -/
theorem raiseFault_stops (cause : FaultCause) (ir : Word) (s : State) :
    Stops s (raiseFault cause ir s) s.pc (.faulted ⟨cause, bits ir 15 12, s.pc - 1, ir⟩) :=
  setRun_stops s _

@[simp] theorem bits_zext16_high (c : Byte) : bits (zext16 c) 15 8 = 0 := by
  apply BitVec.eq_of_getLsbD_eq
  intro i hi
  rw [getLsbD_bits]
  interval_cases i <;> simp [zext16]

@[simp] theorem bits_zext16_low (c : Byte) : bits (zext16 c) 7 0 = c := by
  apply BitVec.eq_of_getLsbD_eq
  intro i hi
  rw [getLsbD_bits]
  interval_cases i <;> simp [zext16]

/-- A character received in R0, with what was written (spec/44_trap.md R177, R180). -/
theorem receives (s : State) (c : Byte) (i : InputStream) (bs : List Byte) :
    Receives s (setReg (setInput (writeChars s bs) i) .r0 (zext16 c)) s.pc c i bs where
  high := by rw [getReg_setReg_self, bits_zext16_high]
  low := by rw [getReg_setReg_self, bits_zext16_low]
  input := rfl
  output := rfl
  pc := rfl
  otherRegs _ h := getReg_setReg_ne _ _ h
  psr := rfl
  mem _ := rfl
  run := rfl
  params := rfl

end Sys2Proof.Machine
end

