-- ==== Sys2Proof/Laws/Encode.lean ====
section
/-! SUPPORT. The fields of an encoded instruction, format by format (spec/30_encoding.md R81), and a word under each mask the
opcode table uses. -/

namespace Sys2Proof

/-! ### Fields -/

@[simp] theorem encodeOpr_15_12 (op : Opcode) (dr sr1 sr2 : Reg) : bits (encodeOpr op dr sr1 sr2) 15 12 = op.toBits := by
  apply BitVec.eq_of_getLsbD_eq
  intro i hi
  simp only [encodeOpr, getLsbD_bits, BitVec.getLsbD_append]
  interval_cases i <;> simp

@[simp] theorem encodeOpr_11_9 (op : Opcode) (dr sr1 sr2 : Reg) : bits (encodeOpr op dr sr1 sr2) 11 9 = dr.toBits := by
  apply BitVec.eq_of_getLsbD_eq
  intro i hi
  simp only [encodeOpr, getLsbD_bits, BitVec.getLsbD_append]
  interval_cases i <;> simp

@[simp] theorem encodeOpr_8_6 (op : Opcode) (dr sr1 sr2 : Reg) : bits (encodeOpr op dr sr1 sr2) 8 6 = sr1.toBits := by
  apply BitVec.eq_of_getLsbD_eq
  intro i hi
  simp only [encodeOpr, getLsbD_bits, BitVec.getLsbD_append]
  interval_cases i <;> simp

@[simp] theorem encodeOpr_5_5 (op : Opcode) (dr sr1 sr2 : Reg) : bits (encodeOpr op dr sr1 sr2) 5 5 = 0 := by
  apply BitVec.eq_of_getLsbD_eq
  intro i hi
  simp only [encodeOpr, getLsbD_bits, BitVec.getLsbD_append]
  interval_cases i
  simp

@[simp] theorem encodeOpr_2_0 (op : Opcode) (dr sr1 sr2 : Reg) : bits (encodeOpr op dr sr1 sr2) 2 0 = sr2.toBits := by
  apply BitVec.eq_of_getLsbD_eq
  intro i hi
  simp only [encodeOpr, getLsbD_bits, BitVec.getLsbD_append]
  interval_cases i <;> simp

@[simp] theorem encodeOpi_15_12 (op : Opcode) (dr sr1 : Reg) (imm5 : BitVec 5) : bits (encodeOpi op dr sr1 imm5) 15 12 = op.toBits := by
  apply BitVec.eq_of_getLsbD_eq
  intro i hi
  simp only [encodeOpi, getLsbD_bits, BitVec.getLsbD_append]
  interval_cases i <;> simp

@[simp] theorem encodeOpi_11_9 (op : Opcode) (dr sr1 : Reg) (imm5 : BitVec 5) : bits (encodeOpi op dr sr1 imm5) 11 9 = dr.toBits := by
  apply BitVec.eq_of_getLsbD_eq
  intro i hi
  simp only [encodeOpi, getLsbD_bits, BitVec.getLsbD_append]
  interval_cases i <;> simp

@[simp] theorem encodeOpi_8_6 (op : Opcode) (dr sr1 : Reg) (imm5 : BitVec 5) : bits (encodeOpi op dr sr1 imm5) 8 6 = sr1.toBits := by
  apply BitVec.eq_of_getLsbD_eq
  intro i hi
  simp only [encodeOpi, getLsbD_bits, BitVec.getLsbD_append]
  interval_cases i <;> simp

@[simp] theorem encodeOpi_5_5 (op : Opcode) (dr sr1 : Reg) (imm5 : BitVec 5) : bits (encodeOpi op dr sr1 imm5) 5 5 = 1 := by
  apply BitVec.eq_of_getLsbD_eq
  intro i hi
  simp only [encodeOpi, getLsbD_bits, BitVec.getLsbD_append]
  interval_cases i
  simp

@[simp] theorem encodeOpi_4_0 (op : Opcode) (dr sr1 : Reg) (imm5 : BitVec 5) : bits (encodeOpi op dr sr1 imm5) 4 0 = imm5 := by
  apply BitVec.eq_of_getLsbD_eq
  intro i hi
  simp only [encodeOpi, getLsbD_bits, BitVec.getLsbD_append]
  interval_cases i <;> simp

@[simp] theorem encodePcr_15_12 (op : Opcode) (reg : Reg) (off9 : BitVec 9) : bits (encodePcr op reg off9) 15 12 = op.toBits := by
  apply BitVec.eq_of_getLsbD_eq
  intro i hi
  simp only [encodePcr, getLsbD_bits, BitVec.getLsbD_append]
  interval_cases i <;> simp

@[simp] theorem encodePcr_11_9 (op : Opcode) (reg : Reg) (off9 : BitVec 9) : bits (encodePcr op reg off9) 11 9 = reg.toBits := by
  apply BitVec.eq_of_getLsbD_eq
  intro i hi
  simp only [encodePcr, getLsbD_bits, BitVec.getLsbD_append]
  interval_cases i <;> simp

@[simp] theorem encodePcr_8_0 (op : Opcode) (reg : Reg) (off9 : BitVec 9) : bits (encodePcr op reg off9) 8 0 = off9 := by
  apply BitVec.eq_of_getLsbD_eq
  intro i hi
  simp only [encodePcr, getLsbD_bits, BitVec.getLsbD_append]
  interval_cases i <;> simp

@[simp] theorem encodeBro_15_12 (op : Opcode) (reg base : Reg) (off6 : BitVec 6) : bits (encodeBro op reg base off6) 15 12 = op.toBits := by
  apply BitVec.eq_of_getLsbD_eq
  intro i hi
  simp only [encodeBro, getLsbD_bits, BitVec.getLsbD_append]
  interval_cases i <;> simp

@[simp] theorem encodeBro_11_9 (op : Opcode) (reg base : Reg) (off6 : BitVec 6) : bits (encodeBro op reg base off6) 11 9 = reg.toBits := by
  apply BitVec.eq_of_getLsbD_eq
  intro i hi
  simp only [encodeBro, getLsbD_bits, BitVec.getLsbD_append]
  interval_cases i <;> simp

@[simp] theorem encodeBro_8_6 (op : Opcode) (reg base : Reg) (off6 : BitVec 6) : bits (encodeBro op reg base off6) 8 6 = base.toBits := by
  apply BitVec.eq_of_getLsbD_eq
  intro i hi
  simp only [encodeBro, getLsbD_bits, BitVec.getLsbD_append]
  interval_cases i <;> simp

@[simp] theorem encodeBro_5_0 (op : Opcode) (reg base : Reg) (off6 : BitVec 6) : bits (encodeBro op reg base off6) 5 0 = off6 := by
  apply BitVec.eq_of_getLsbD_eq
  intro i hi
  simp only [encodeBro, getLsbD_bits, BitVec.getLsbD_append]
  interval_cases i <;> simp

@[simp] theorem encodeBrf_15_12 (mask : BitVec 3) (off9 : BitVec 9) : bits (encodeBrf mask off9) 15 12 = Opcode.br.toBits := by
  apply BitVec.eq_of_getLsbD_eq
  intro i hi
  simp only [encodeBrf, getLsbD_bits, BitVec.getLsbD_append]
  interval_cases i <;> simp

@[simp] theorem encodeBrf_11_9 (mask : BitVec 3) (off9 : BitVec 9) : bits (encodeBrf mask off9) 11 9 = mask := by
  apply BitVec.eq_of_getLsbD_eq
  intro i hi
  simp only [encodeBrf, getLsbD_bits, BitVec.getLsbD_append]
  interval_cases i <;> simp

@[simp] theorem encodeBrf_8_0 (mask : BitVec 3) (off9 : BitVec 9) : bits (encodeBrf mask off9) 8 0 = off9 := by
  apply BitVec.eq_of_getLsbD_eq
  intro i hi
  simp only [encodeBrf, getLsbD_bits, BitVec.getLsbD_append]
  interval_cases i <;> simp

@[simp] theorem encodeJsrf_15_12 (off11 : BitVec 11) : bits (encodeJsrf off11) 15 12 = Opcode.jsr.toBits := by
  apply BitVec.eq_of_getLsbD_eq
  intro i hi
  simp only [encodeJsrf, getLsbD_bits, BitVec.getLsbD_append]
  interval_cases i <;> simp

@[simp] theorem encodeJsrf_11_11 (off11 : BitVec 11) : bits (encodeJsrf off11) 11 11 = 1 := by
  apply BitVec.eq_of_getLsbD_eq
  intro i hi
  simp only [encodeJsrf, getLsbD_bits, BitVec.getLsbD_append]
  interval_cases i
  simp

@[simp] theorem encodeJsrf_10_0 (off11 : BitVec 11) : bits (encodeJsrf off11) 10 0 = off11 := by
  apply BitVec.eq_of_getLsbD_eq
  intro i hi
  simp only [encodeJsrf, getLsbD_bits, BitVec.getLsbD_append]
  interval_cases i <;> simp

@[simp] theorem encodeJsrrf_15_12 (base : Reg) : bits (encodeJsrrf base) 15 12 = Opcode.jsr.toBits := by
  apply BitVec.eq_of_getLsbD_eq
  intro i hi
  simp only [encodeJsrrf, getLsbD_bits, BitVec.getLsbD_append]
  interval_cases i <;> simp

@[simp] theorem encodeJsrrf_11_11 (base : Reg) : bits (encodeJsrrf base) 11 11 = 0 := by
  apply BitVec.eq_of_getLsbD_eq
  intro i hi
  simp only [encodeJsrrf, getLsbD_bits, BitVec.getLsbD_append]
  interval_cases i
  simp

@[simp] theorem encodeJsrrf_8_6 (base : Reg) : bits (encodeJsrrf base) 8 6 = base.toBits := by
  apply BitVec.eq_of_getLsbD_eq
  intro i hi
  simp only [encodeJsrrf, getLsbD_bits, BitVec.getLsbD_append]
  interval_cases i <;> simp

@[simp] theorem encodeNot_15_12 (dr sr : Reg) : bits (encodeNot dr sr) 15 12 = Opcode.not.toBits := by
  apply BitVec.eq_of_getLsbD_eq
  intro i hi
  simp only [encodeNot, getLsbD_bits, BitVec.getLsbD_append]
  interval_cases i <;> simp

@[simp] theorem encodeNot_11_9 (dr sr : Reg) : bits (encodeNot dr sr) 11 9 = dr.toBits := by
  apply BitVec.eq_of_getLsbD_eq
  intro i hi
  simp only [encodeNot, getLsbD_bits, BitVec.getLsbD_append]
  interval_cases i <;> simp

@[simp] theorem encodeNot_8_6 (dr sr : Reg) : bits (encodeNot dr sr) 8 6 = sr.toBits := by
  apply BitVec.eq_of_getLsbD_eq
  intro i hi
  simp only [encodeNot, getLsbD_bits, BitVec.getLsbD_append]
  interval_cases i <;> simp

@[simp] theorem encodeJmpf_15_12 (base : Reg) : bits (encodeJmpf base) 15 12 = Opcode.jmp.toBits := by
  apply BitVec.eq_of_getLsbD_eq
  intro i hi
  simp only [encodeJmpf, getLsbD_bits, BitVec.getLsbD_append]
  interval_cases i <;> simp

@[simp] theorem encodeJmpf_8_6 (base : Reg) : bits (encodeJmpf base) 8 6 = base.toBits := by
  apply BitVec.eq_of_getLsbD_eq
  intro i hi
  simp only [encodeJmpf, getLsbD_bits, BitVec.getLsbD_append]
  interval_cases i <;> simp

@[simp] theorem encodeNone_15_12 (op : Opcode) (low12 : BitVec 12) : bits (encodeNone op low12) 15 12 = op.toBits := by
  apply BitVec.eq_of_getLsbD_eq
  intro i hi
  simp only [encodeNone, getLsbD_bits, BitVec.getLsbD_append]
  interval_cases i <;> simp

@[simp] theorem encodeNone_11_0 (op : Opcode) (low12 : BitVec 12) : bits (encodeNone op low12) 11 0 = low12 := by
  apply BitVec.eq_of_getLsbD_eq
  intro i hi
  simp only [encodeNone, getLsbD_bits, BitVec.getLsbD_append]
  interval_cases i <;> simp

@[simp] theorem encodeTrapf_15_12 (ign4 : BitVec 4) (vect8 : BitVec 8) : bits (encodeTrapf ign4 vect8) 15 12 = Opcode.trap.toBits := by
  apply BitVec.eq_of_getLsbD_eq
  intro i hi
  simp only [encodeTrapf, getLsbD_bits, BitVec.getLsbD_append]
  interval_cases i <;> simp

@[simp] theorem encodeTrapf_11_8 (ign4 : BitVec 4) (vect8 : BitVec 8) : bits (encodeTrapf ign4 vect8) 11 8 = ign4 := by
  apply BitVec.eq_of_getLsbD_eq
  intro i hi
  simp only [encodeTrapf, getLsbD_bits, BitVec.getLsbD_append]
  interval_cases i <;> simp

@[simp] theorem encodeTrapf_7_0 (ign4 : BitVec 4) (vect8 : BitVec 8) : bits (encodeTrapf ign4 vect8) 7 0 = vect8 := by
  apply BitVec.eq_of_getLsbD_eq
  intro i hi
  simp only [encodeTrapf, getLsbD_bits, BitVec.getLsbD_append]
  interval_cases i <;> simp

/-! ### Words made of their own fields -/

theorem encodeNone_of_bits {w : Word} {o : Opcode} (h : bits w 15 12 = o.toBits) :
    encodeNone o (bits w 11 0) = w := by
  rw [encodeNone, ← h]
  apply BitVec.eq_of_getLsbD_eq
  intro i hi
  simp only [BitVec.getLsbD_append, getLsbD_bits]
  interval_cases i <;> simp

theorem encodeTrapf_of_bits {w : Word} (h : bits w 15 12 = 15) : encodeTrapf (bits w 11 8) (bits w 7 0) = w := by
  rw [encodeTrapf, show Opcode.trap.toBits = bits w 15 12 from h.symm]
  apply BitVec.eq_of_getLsbD_eq
  intro i hi
  simp only [BitVec.getLsbD_append, getLsbD_bits]
  interval_cases i <;> simp

/-! ### Masks -/

theorem and_F000 (w : Word) : w &&& 0xF000#16 = bits w 15 12 ++ 0#12 := by
  apply BitVec.eq_of_getLsbD_eq
  intro i hi
  simp only [BitVec.getLsbD_and, BitVec.getLsbD_append, getLsbD_bits]
  interval_cases i <;> simp

theorem and_F020 (w : Word) : w &&& 0xF020#16 = bits w 15 12 ++ 0#6 ++ bits w 5 5 ++ 0#5 := by
  apply BitVec.eq_of_getLsbD_eq
  intro i hi
  simp only [BitVec.getLsbD_and, BitVec.getLsbD_append, getLsbD_bits]
  interval_cases i <;> simp

theorem and_F800 (w : Word) : w &&& 0xF800#16 = bits w 15 12 ++ bits w 11 11 ++ 0#11 := by
  apply BitVec.eq_of_getLsbD_eq
  intro i hi
  simp only [BitVec.getLsbD_and, BitVec.getLsbD_append, getLsbD_bits]
  interval_cases i <;> simp

theorem and_F0FF (w : Word) : w &&& 0xF0FF#16 = bits w 15 12 ++ 0#4 ++ bits w 7 0 := by
  apply BitVec.eq_of_getLsbD_eq
  intro i hi
  simp only [BitVec.getLsbD_and, BitVec.getLsbD_append, getLsbD_bits]
  interval_cases i <;> simp

end Sys2Proof
end

