-- ==== Sys2Proof/Laws/PerInstr.lean ====
section
/-! SUPPORT. One law per instruction: its encoding lies in its own row of spec/opcode_table.json (spec/30_encoding.md R85,
R88, R89). -/

namespace Sys2Proof.Laws

/-- The word of an instruction, under its row's mask, is its row's value. -/
def TableRow.Statement (i : Instr) : Prop := encode i &&& i.row.mask = i.row.value

theorem TableRow.br (mask : BitVec 3) (off9 : BitVec 9) : TableRow.Statement (.br mask off9) :=
  (and_F000 _).trans (by simp [Instr.row, encode, Opcode.toBits])

theorem TableRow.addReg (dr : Reg) (sr1 : Reg) (sr2 : Reg) : TableRow.Statement (.addReg dr sr1 sr2) :=
  (and_F020 _).trans (by simp [Instr.row, encode, Opcode.toBits])

theorem TableRow.addImm (dr : Reg) (sr1 : Reg) (imm5 : BitVec 5) : TableRow.Statement (.addImm dr sr1 imm5) :=
  (and_F020 _).trans (by simp [Instr.row, encode, Opcode.toBits])

theorem TableRow.ld (dr : Reg) (off9 : BitVec 9) : TableRow.Statement (.ld dr off9) :=
  (and_F000 _).trans (by simp [Instr.row, encode, Opcode.toBits])

theorem TableRow.st (sr : Reg) (off9 : BitVec 9) : TableRow.Statement (.st sr off9) :=
  (and_F000 _).trans (by simp [Instr.row, encode, Opcode.toBits])

theorem TableRow.jsr (off11 : BitVec 11) : TableRow.Statement (.jsr off11) :=
  (and_F800 _).trans (by simp [Instr.row, encode, Opcode.toBits])

theorem TableRow.jsrr (base : Reg) : TableRow.Statement (.jsrr base) :=
  (and_F800 _).trans (by simp [Instr.row, encode, Opcode.toBits])

theorem TableRow.andReg (dr : Reg) (sr1 : Reg) (sr2 : Reg) : TableRow.Statement (.andReg dr sr1 sr2) :=
  (and_F020 _).trans (by simp [Instr.row, encode, Opcode.toBits])

theorem TableRow.andImm (dr : Reg) (sr1 : Reg) (imm5 : BitVec 5) : TableRow.Statement (.andImm dr sr1 imm5) :=
  (and_F020 _).trans (by simp [Instr.row, encode, Opcode.toBits])

theorem TableRow.ldr (dr : Reg) (base : Reg) (off6 : BitVec 6) : TableRow.Statement (.ldr dr base off6) :=
  (and_F000 _).trans (by simp [Instr.row, encode, Opcode.toBits])

theorem TableRow.str (sr : Reg) (base : Reg) (off6 : BitVec 6) : TableRow.Statement (.str sr base off6) :=
  (and_F000 _).trans (by simp [Instr.row, encode, Opcode.toBits])

theorem TableRow.rti (low12 : BitVec 12) : TableRow.Statement (.rti low12) :=
  (and_F000 _).trans (by simp [Instr.row, encode, Opcode.toBits])

theorem TableRow.not (dr : Reg) (sr : Reg) : TableRow.Statement (.not dr sr) :=
  (and_F000 _).trans (by simp [Instr.row, encode, Opcode.toBits])

theorem TableRow.ldi (dr : Reg) (off9 : BitVec 9) : TableRow.Statement (.ldi dr off9) :=
  (and_F000 _).trans (by simp [Instr.row, encode, Opcode.toBits])

theorem TableRow.sti (sr : Reg) (off9 : BitVec 9) : TableRow.Statement (.sti sr off9) :=
  (and_F000 _).trans (by simp [Instr.row, encode, Opcode.toBits])

theorem TableRow.jmp (base : Reg) : TableRow.Statement (.jmp base) :=
  (and_F000 _).trans (by simp [Instr.row, encode, Opcode.toBits])

theorem TableRow.res (low12 : BitVec 12) : TableRow.Statement (.res low12) :=
  (and_F000 _).trans (by simp [Instr.row, encode, Opcode.toBits])

theorem TableRow.lea (dr : Reg) (off9 : BitVec 9) : TableRow.Statement (.lea dr off9) :=
  (and_F000 _).trans (by simp [Instr.row, encode, Opcode.toBits])

theorem TableRow.trap (ign4 : BitVec 4) (vect8 : BitVec 8) : TableRow.Statement (.trap ign4 vect8) :=
  (and_F000 _).trans (by simp [Instr.row, encode, Opcode.toBits])

theorem TableRow.getc : TableRow.Statement (.getc) :=
  (and_F0FF _).trans (by simp [Instr.row, encode, Opcode.toBits])

theorem TableRow.out : TableRow.Statement (.out) :=
  (and_F0FF _).trans (by simp [Instr.row, encode, Opcode.toBits])

theorem TableRow.puts : TableRow.Statement (.puts) :=
  (and_F0FF _).trans (by simp [Instr.row, encode, Opcode.toBits])

theorem TableRow.inChar : TableRow.Statement (.inChar) :=
  (and_F0FF _).trans (by simp [Instr.row, encode, Opcode.toBits])

theorem TableRow.putsp : TableRow.Statement (.putsp) :=
  (and_F0FF _).trans (by simp [Instr.row, encode, Opcode.toBits])

theorem TableRow.halt : TableRow.Statement (.halt) :=
  (and_F0FF _).trans (by simp [Instr.row, encode, Opcode.toBits])

end Sys2Proof.Laws
end

