-- ==== Sys2Proof/Laws/Step.lean ====
section
/-! SUPPORT. What one cycle can do, said once (spec/40_cycle_and_units.md R110, R111). -/

namespace Sys2Proof.Machine

/-! Advancing `pc` changes nothing else, so an effect from the advanced state is the effect from the state before it. -/

theorem Defines.of_advance {s t : State} {pc' v : Word} {dr : Reg} (h : Defines (advancePc s) t pc' dr v) : Defines s t pc' dr v :=
  ⟨h.result, h.flags, h.pc, h.otherRegs, h.psrRest, h.mem, ⟨h.rest.run, h.rest.output, h.rest.input, h.rest.params⟩⟩

theorem Stores.of_advance {s t : State} {pc' a v : Word} (h : Stores (advancePc s) t pc' a v) : Stores s t pc' a v :=
  ⟨h.stored, h.pc, h.otherWords, h.regs, h.psr, ⟨h.rest.run, h.rest.output, h.rest.input, h.rest.params⟩⟩

theorem Jumps.of_advance {s t : State} {pc' : Word} (h : Jumps (advancePc s) t pc') : Jumps s t pc' :=
  ⟨h.pc, h.regs, h.psr, h.mem, ⟨h.rest.run, h.rest.output, h.rest.input, h.rest.params⟩⟩

theorem Calls.of_advance {s t : State} {pc' link : Word} (h : Calls (advancePc s) t pc' link) : Calls s t pc' link :=
  ⟨h.pc, h.link, h.otherRegs, h.psr, h.mem, ⟨h.rest.run, h.rest.output, h.rest.input, h.rest.params⟩⟩

theorem Writes.of_advance {s t : State} {pc' : Word} {bs : List Byte} (h : Writes (advancePc s) t pc' bs) : Writes s t pc' bs :=
  ⟨h.output, h.pc, h.regs, h.psr, h.mem, h.run, h.input, h.params⟩

theorem Receives.of_advance {s t : State} {pc' : Word} {c : Byte} {after : InputStream} {bs : List Byte} (h : Receives (advancePc s) t pc' c after bs) : Receives s t pc' c after bs :=
  ⟨h.high, h.low, h.input, h.output, h.pc, h.otherRegs, h.psr, h.mem, h.run, h.params⟩

theorem Stops.of_advance {s t : State} {pc' : Word} {run' : RunState} (h : Stops (advancePc s) t pc' run') : Stops s t pc' run' :=
  ⟨h.run, h.pc, h.regs, h.psr, h.mem, h.output, h.input, h.params⟩

/-- A Running machine executes the decoded word with `pc` advanced. -/
theorem step_of_running {s : State} (h : s.run = .running) :
    step s = exec (decode (loadWord s s.pc)) (advancePc s) := by
  simp [step, h, fetchWord]

/-- Whatever a step leads to, it was the execution of the decoded word of a Running machine. -/
theorem step_eq_next {s t : State} (h : step s = .next t) :
    s.run = .running ∧ exec (decode (loadWord s s.pc)) (advancePc s) = .next t := by
  unfold step at h
  split at h
  · exact ⟨‹_›, h⟩
  · cases h
  · cases h

/-- The two input routines on a stream with a byte to take. -/
theorem execGetc_of_takeByte {s : State} {c : Byte} {i : InputStream} (h : takeByte s.input = some (c, i)) :
    execGetc s = .next (setReg (setInput s i) .r0 (zext16 c)) := by
  simp [execGetc, readChar_of_takeByte h]

theorem execIn_of_takeByte {s : State} {c : Byte} {i : InputStream} (h : takeByte s.input = some (c, i)) :
    execIn s = .next (setReg (setInput (writeChars s (s.params.inPrompt ++ [c])) i) .r0 (zext16 c)) := by
  have h' : takeByte (writeChars s s.params.inPrompt).input = some (c, i) := h
  simp only [execIn, readChar_of_takeByte h']
  simp [writeChar, writeChars, setInput]

/-- The two input routines where `read_char` does not return. -/
theorem execGetc_blocked {s : State} (h : takeByte s.input = none) : execGetc s = .fault (.awaitingInput s) := by
  simp [execGetc, (readChar_eq_none s).mpr h]

theorem execIn_blocked {s : State} (h : takeByte s.input = none) :
    execIn s = .fault (.awaitingInput (writeChars s s.params.inPrompt)) := by
  have h' : readChar (writeChars s s.params.inPrompt) = none := (readChar_eq_none _).mpr h
  simp [execIn, h']

/-- Every next state GETC can give. -/
theorem execGetc_eq_next {s t : State} (h : execGetc s = .next t) :
    ∃ c i, takeByte s.input = some (c, i) ∧ t = setReg (setInput s i) .r0 (zext16 c) := by
  cases e : takeByte s.input with
  | none => rw [execGetc_blocked e] at h; cases h
  | some p =>
    rw [execGetc_of_takeByte (c := p.1) (i := p.2) e] at h
    cases h
    exact ⟨p.1, p.2, rfl, rfl⟩

/-- Every next state IN can give. -/
theorem execIn_eq_next {s t : State} (h : execIn s = .next t) :
    ∃ c i, takeByte s.input = some (c, i) ∧
      t = setReg (setInput (writeChars s (s.params.inPrompt ++ [c])) i) .r0 (zext16 c) := by
  cases e : takeByte s.input with
  | none => rw [execIn_blocked e] at h; cases h
  | some p =>
    rw [execIn_of_takeByte (c := p.1) (i := p.2) e] at h
    cases h
    exact ⟨p.1, p.2, rfl, rfl⟩

/-- Every next state PUTS can give. -/
theorem execPuts_eq_next {s t : State} (h : execPuts s = .next t) : ∃ bs, t = writeChars s bs := by
  unfold execPuts at h
  split at h
  · cases h; exact ⟨_, rfl⟩
  · cases h

/-- Every next state PUTSP can give. -/
theorem execPutsp_eq_next {s t : State} (h : execPutsp s = .next t) : ∃ bs, t = writeChars s bs := by
  unfold execPutsp at h
  split at h
  · cases h; exact ⟨_, rfl⟩
  · cases h

/-- The generic TRAP row, with a vector that has no routine, takes its fault (spec/44_trap.md R184). -/
theorem execTrap_undefined {ign4 : BitVec 4} {vect8 : BitVec 8} (h : definedVector vect8 = false) (s : State) :
    execTrap ign4 vect8 s = .next (raiseFault .unknownTrapVector (encodeTrapf ign4 vect8) s) := by
  simp only [definedVector, Bool.and_eq_false_iff, decide_eq_false_iff_not, Nat.not_le] at h
  unfold execTrap
  split <;> first | omega | rfl

end Sys2Proof.Machine
end

