-- ==== Sys2Proof/Tests/Slice0.lean ====
section
/-! SUPPORT. Tests: the WellFormed smoke test, one word written out from the spec's encoding for every constructor, single
steps with the results spec/95_test_vectors.md gives, and for every statement with hypotheses a theorem that meets them
all. Expected results come from spec/95_test_vectors.md and from the rules' own examples. -/

namespace Sys2Proof.Tests

open Sys2Proof.Machine

/-! ### Helpers -/

/-- A Running machine at `pc` with the given words in memory, everything else as at reset. -/
def placed (pc : Word) (cells : List (Word × Word)) : State :=
  { State.reset with pc := pc, mem := cells.foldl (fun m c => memWrite m c.1 c.2) [] }

/-- One word at 0x3000, about to be fetched. -/
def one (w : Word) : State := placed 0x3000 [(0x3000, w)]

/-- The given general registers changed. -/
def withRegs (s : State) (rs : List (Reg × Word)) : State := rs.foldl (fun t r => setReg t r.1 r.2) s

/-- The environment has exactly these bytes to give and then never returns from `read_char`. -/
def withInput (s : State) (bs : List Byte) : State := setInput s { ready := bs, tail := .silent, drawn := 0 }

/-- The outcome is a next state with the given property. -/
def nextIs (o : Host.Outcome State Fault Refusal) (p : State → Bool) : Bool :=
  match o with
  | .next t => p t
  | .fault _ | .refused _ => false

/-- The outcome is the given fault. -/
def faultIs (o : Host.Outcome State Fault Refusal) (f : Fault) : Bool :=
  match o with
  | .fault g => decide (g = f)
  | .next _ | .refused _ => false

/-- What the rows of spec/95_test_vectors.md section 2.4 list: a register, the flags and PC afterwards. -/
def ends (w : Word) (rs : List (Reg × Word)) (r : Reg) (v : Word) (c : BitVec 3) : Bool :=
  nextIs (step (withRegs (one w) rs)) fun t => getReg t r = v ∧ condOf t = c ∧ t.pc = 0x3001

/-- What the rows of section 2.5 list: PC afterwards. -/
def goesTo (s : State) (pc : Word) : Bool := nextIs (step s) fun t => t.pc = pc

/-- A machine whose first `n` words, from address 0 up, are all 0x0101, its registers zero. -/
def filledFrom : Nat → Nat → Mem
  | _, 0 => []
  | lo, n + 1 => (lo, 0x0101) :: filledFrom (lo + 1) n

theorem memReadAt_filledFrom (n : Nat) :
    ∀ lo a, memReadAt (filledFrom lo n) a = if lo ≤ a ∧ a < lo + n then 0x0101 else 0 := by
  induction n with
  | zero => intro lo a; rw [if_neg (by omega)]; rfl
  | succ n ih =>
    intro lo a
    simp only [filledFrom, memReadAt, ih]
    split_ifs <;> first | rfl | omega

theorem memWfFrom_filledFrom (n : Nat) : ∀ lo, lo + n ≤ 0x10000 → memWfFrom lo (filledFrom lo n) = true := by
  induction n with
  | zero => intro lo _; rfl
  | succ n ih =>
    intro lo h
    simp only [filledFrom, memWfFrom, Bool.and_eq_true, decide_eq_true_eq]
    exact ⟨⟨⟨Nat.le_refl _, by omega⟩, by decide⟩, ih (lo + 1) (by omega)⟩

/-- A word in memory whose first `n` words are 0x0101, at the last address, where PC stands; R0 is 0. -/
def filled (n : Nat) (w : Word) : State := { State.reset with pc := 0xFFFF, mem := filledFrom 0 n ++ [(0xFFFF, w)] }

theorem memReadAt_append_last (n : Nat) (w : Word) :
    ∀ lo a, lo + n ≤ 0xFFFF →
      memReadAt (filledFrom lo n ++ [(0xFFFF, w)]) a = if lo ≤ a ∧ a < lo + n then 0x0101 else if a = 0xFFFF then w else 0 := by
  induction n with
  | zero => intro lo a _; rw [if_neg (by omega)]; rfl
  | succ n ih =>
    intro lo a h
    simp only [filledFrom, List.cons_append, memReadAt, ih (lo + 1) a (by omega)]
    split_ifs <;> first | rfl | omega

theorem loadWord_filled (n : Nat) (w a : Word) (h : n ≤ 0xFFFF) :
    loadWord (filled n w) a = if a.toNat < n then 0x0101 else if a = 0xFFFF then w else 0 := by
  have := memReadAt_append_last n w 0 a.toNat (by omega)
  simp only [Nat.zero_le, true_and, Nat.zero_add] at this
  rw [show loadWord (filled n w) a = memReadAt (filledFrom 0 n ++ [(0xFFFF, w)]) a.toNat from rfl, this]
  have e : a = 0xFFFF ↔ a.toNat = 0xFFFF := by
    constructor
    · rintro rfl; rfl
    · intro h; exact BitVec.eq_of_toNat_eq h
  simp only [e]

/-! ### Well-formed instructions (spec/30_encoding.md R88, R89) -/

/-- The one check refuses the generic TRAP row with a vector that has a row of its own, from 0x20 to 0x25. -/
theorem test_wf_refuses : Instr.wf (.trap 0 0x20) = false ∧ Instr.wf (.trap 0xF 0x25) = false := by decide

theorem test_wf_accepts : Instr.wf (.trap 0 0x1F) = true ∧ Instr.wf (.trap 0xF 0x26) = true ∧ Instr.wf .getc = true := by decide

/-! ### Decoding, each word written out from the formats of R81 and the opcodes of R85 -/

theorem test_decode_br : decode 0b0000_001_111111101 = .br 0b001 0x1FD := by decide
theorem test_decode_addReg : decode 0b0001_010_011_0_00_100 = .addReg .r2 .r3 .r4 := by decide
theorem test_decode_addImm : decode 0b0001_010_011_1_10000 = .addImm .r2 .r3 0b10000 := by decide
theorem test_decode_ld : decode 0b0010_010_000000101 = .ld .r2 5 := by decide
theorem test_decode_st : decode 0b0011_011_111111110 = .st .r3 0x1FE := by decide
theorem test_decode_jsr : decode 0b0100_1_00000010000 = .jsr 16 := by decide
theorem test_decode_jsrr : decode 0b0100_0_00_010_000000 = .jsrr .r2 := by decide
theorem test_decode_andReg : decode 0b0101_101_110_0_00_111 = .andReg .r5 .r6 .r7 := by decide
theorem test_decode_andImm : decode 0b0101_010_001_1_01111 = .andImm .r2 .r1 15 := by decide
theorem test_decode_ldr : decode 0b0110_001_010_111111 = .ldr .r1 .r2 0x3F := by decide
theorem test_decode_str : decode 0b0111_000_110_000010 = .str .r0 .r6 2 := by decide
theorem test_decode_rti : decode 0b1000_000000000000 = .rti 0 := by decide
theorem test_decode_not : decode 0b1001_001_010_111111 = .not .r1 .r2 := by decide
theorem test_decode_ldi : decode 0b1010_001_000000011 = .ldi .r1 3 := by decide
theorem test_decode_sti : decode 0b1011_100_000000001 = .sti .r4 1 := by decide
theorem test_decode_jmp : decode 0b1100_000_011_000000 = .jmp .r3 := by decide
theorem test_decode_res : decode 0b1101_101010111100 = .res 0xABC := by decide
theorem test_decode_lea : decode 0b1110_101_111111111 = .lea .r5 0x1FF := by decide
theorem test_decode_trap : decode 0b1111_0000_00100110 = .trap 0 0x26 := by decide
theorem test_decode_getc : decode 0b1111_0000_00100000 = .getc := by decide
theorem test_decode_out : decode 0b1111_0000_00100001 = .out := by decide
theorem test_decode_puts : decode 0b1111_0000_00100010 = .puts := by decide
theorem test_decode_inChar : decode 0b1111_0000_00100011 = .inChar := by decide
theorem test_decode_putsp : decode 0b1111_0000_00100100 = .putsp := by decide
theorem test_decode_halt : decode 0b1111_0000_00100101 = .halt := by decide

/-- The rows of section 2.3 that differ from another row in ignored bits only. -/
theorem test_decode_ignored :
    decode 0x14DC = decode 0x14C4 ∧ decode 0x9280 = decode 0x92BF ∧ decode 0x92A0 = decode 0x92BF ∧
      decode 0xCEFF = decode 0xC0C0 ∧ decode 0x46BF = decode 0x4080 ∧ decode 0xFF25 = decode 0xF025 := by decide

/-- The encoder gives section 2.4's words. -/
theorem test_encode :
    encode (.addReg .r2 .r3 .r4) = 0x14C4 ∧ encode (.not .r1 .r2) = 0x92BF ∧ encode (.jmp .r7) = 0xC1C0 ∧
      encode (.jsrr .r2) = 0x4080 ∧ encode .halt = 0xF025 ∧ encode (.rti 0) = 0x8000 := by decide

theorem test_decodeTableWord :
    decodeTableWord 16 0x14C4 = some (.addReg .r2 .r3 .r4) ∧ decodeTableWord 16 0xF025 = some .halt := by decide

/-! ### Bit fields and flags (section 2.1, section 2.2) -/

theorem test_bits :
    bits 0xABCD 15 12 = 0xA ∧ bits 0xABCD 11 9 = 5 ∧ bits 0xABCD 8 6 = 7 ∧ bits 0xABCD 5 5 = 0 ∧ bits 0xABCD 10 0 = 0x3CD ∧
      bits 0xABCD 15 0 = 0xABCD := by decide

theorem test_sext16 :
    sext16 0x1F#5 = 0xFFFF ∧ sext16 0x0F#5 = 0x000F ∧ sext16 0x20#6 = 0xFFE0 ∧ sext16 0x100#9 = 0xFF00 ∧
      sext16 0x0FF#9 = 0x00FF ∧ sext16 0x400#11 = 0xFC00 ∧ sext16 4#3 = 0xFFFC := by decide

theorem test_setcc :
    withCc 0x0002 (ccOf 0x7FFF) = 0x0001 ∧ withCc 0x0002 (ccOf 0x8000) = 0x0004 ∧ withCc 0x0004 (ccOf 0) = 0x0002 ∧
      withCc 0x8001 (ccOf 0x8000) = 0x8004 ∧ withCc 0x7FF9 (ccOf 0) = 0x7FFA := by decide

/-! ### Single steps (sections 2.4 to 2.9 and S1 to S9) -/

/-- The placed word is fetched and run as the first instruction after reset. -/
theorem test_withFetchWord : goesTo (State.reset.withFetchWord 16 0x4810) 0x3011 = true := by decide

theorem test_addReg_wraps : ends 0x14C4 [(.r3, 0x8000), (.r4, 0xFFFF)] .r2 0x7FFF 0b001 = true := by decide
theorem test_addReg_doubles : ends 0x1241 [(.r1, 0x4001)] .r1 0x8002 0b100 = true := by decide
theorem test_addImm_negative : ends 0x16F0 [(.r3, 0x1234)] .r3 0x1224 0b001 = true := by decide
theorem test_addImm_zero : ends 0x127F [(.r1, 0x0001)] .r1 0x0000 0b010 = true := by decide
theorem test_andReg : ends 0x5B87 [(.r6, 0xF0F0), (.r7, 0x0FF0)] .r5 0x00F0 0b001 = true := by decide
theorem test_andImm_sign_extends : ends 0x5470 [(.r1, 0xBEEF)] .r2 0xBEE0 0b100 = true := by decide
theorem test_not : ends 0x927F [(.r1, 0x7FFF)] .r1 0x8000 0b100 = true := by decide

theorem test_ld : nextIs (step (placed 0xFFFF [(0xFFFF, 0x2001), (0x0001, 0x1234)]))
    (fun t => getReg t .r0 = 0x1234 ∧ condOf t = 0b001 ∧ t.pc = 0x0000) = true := by decide
theorem test_ld_own_word : ends 0x21FF [] .r0 0x21FF 0b001 = true := by decide
theorem test_st_own_word : nextIs (step (one 0x3FFF))
    (fun t => loadWord t 0x3000 = 0x0000 ∧ t.mem = [] ∧ t.pc = 0x3001) = true := by decide
theorem test_st : nextIs (step (withRegs (placed 0x3005 [(0x3005, 0x37FE)]) [(.r3, 0x1234)]))
    (fun t => loadWord t 0x3004 = 0x1234 ∧ t.psr = 0x0002 ∧ t.mem.wf = true) = true := by decide
theorem test_ldi : nextIs (step (placed 0x3000 [(0x3000, 0xA203), (0x3004, 0x4000), (0x4000, 0xBEEF)]))
    (fun t => getReg t .r1 = 0xBEEF ∧ condOf t = 0b100) = true := by decide
theorem test_ldi_self : nextIs (step (placed 0x3000 [(0x3000, 0xA203), (0x3004, 0x3004)]))
    (fun t => getReg t .r1 = 0x3004 ∧ condOf t = 0b001) = true := by decide
theorem test_sti_self : nextIs (step (withRegs (placed 0x3000 [(0x3000, 0xB801), (0x3002, 0x3002)]) [(.r4, 0x00AA)]))
    (fun t => loadWord t 0x3002 = 0x00AA) = true := by decide
theorem test_ldr : nextIs (step (withRegs (placed 0x3000 [(0x3000, 0x62A0), (0x4000, 0xFFFF)]) [(.r2, 0x4020)]))
    (fun t => getReg t .r1 = 0xFFFF ∧ condOf t = 0b100) = true := by decide
theorem test_ldr_same : nextIs (step (withRegs (placed 0x3000 [(0x3000, 0x6480), (0x4000, 0x9000)]) [(.r2, 0x4000)]))
    (fun t => getReg t .r2 = 0x9000 ∧ condOf t = 0b100) = true := by decide
theorem test_str : nextIs (step (withRegs (one 0x7241) [(.r1, 0x4000)])) (fun t => loadWord t 0x4001 = 0x4000) = true := by decide
theorem test_lea : nextIs (step (placed 0x8100 [(0x8100, 0xEB00)]))
    (fun t => getReg t .r5 = 0x8001 ∧ condOf t = 0b100) = true := by decide

theorem test_br_taken : goesTo (setPsr (placed 0x3005 [(0x3005, 0x03FD)]) 0x0001) 0x3003 = true := by decide
theorem test_br_untaken : goesTo (placed 0x3005 [(0x3005, 0x03FD)]) 0x3006 = true := by decide
theorem test_jmp : goesTo (withRegs (placed 0x4005 [(0x4005, 0xC1C0)]) [(.r7, 0x3002)]) 0x3002 = true := by decide
theorem test_jsr : nextIs (step (one 0x4C00)) (fun t => getReg t .r7 = 0x3001 ∧ t.pc = 0x2C01 ∧ t.psr = 0x0002) = true := by decide
theorem test_jsrr_r7 : nextIs (step (withRegs (one 0x41C0) [(.r7, 0x5000)]))
    (fun t => getReg t .r7 = 0x3001 ∧ t.pc = 0x3001) = true := by decide

/-- `JSRR R7` with `JSRR_LINK_FIRST` false. -/
theorem test_jsrr_r7_read_first :
    nextIs (step { withRegs (one 0x41C0) [(.r7, 0x5000)] with params := { Params.default with jsrrLinkFirst := false } })
      (fun t => getReg t .r7 = 0x3001 ∧ t.pc = 0x5000) = true := by decide

theorem test_getc : nextIs (step (withInput (withRegs (one 0xF020) [(.r0, 0xFFFF)]) [0x41]))
    (fun t => getReg t .r0 = 0x0041 ∧ t.output = [] ∧ t.psr = 0x0002 ∧ t.input.ready = [] ∧ t.pc = 0x3001) = true := by decide
theorem test_getc_waits : faultIs (step (withInput (one 0xF020) []))
    (.awaitingInput { withInput (one 0xF020) [] with pc := 0x3001 }) = true := by decide
theorem test_out : nextIs (step (withRegs (one 0xF021) [(.r0, 0x1248)]))
    (fun t => t.output = [0x48] ∧ getReg t .r0 = 0x1248) = true := by decide
theorem test_puts_low_bytes :
    nextIs (step (withRegs (placed 0x3000 [(0x3000, 0xF022), (0x4000, 0x1241), (0x4001, 0x0100)]) [(.r0, 0x4000)]))
      (fun t => t.output = [0x41, 0x00] ∧ getReg t .r0 = 0x4000) = true := by decide +kernel
theorem test_puts_wraps :
    nextIs (step (withRegs (placed 0x3000 [(0x3000, 0xF022), (0xFFFF, 0x0041), (0x0000, 0x0042)]) [(.r0, 0xFFFF)]))
      (fun t => t.output = [0x41, 0x42]) = true := by decide +kernel
theorem test_in : nextIs (step (withInput (one 0xF023) [0x79]))
    (fun t => t.output = Config.defaultPrompt ++ [0x79] ∧ getReg t .r0 = 0x0079 ∧ t.psr = 0x0002) = true := by decide
theorem test_putsp_odd :
    nextIs (step (withRegs (placed 0x3000 [(0x3000, 0xF024), (0x4000, 0x6548), (0x4001, 0x006C), (0x4002, 0x4242)])
      [(.r0, 0x4000)])) (fun t => t.output = [0x48, 0x65, 0x6C]) = true := by decide +kernel
theorem test_putsp_low_zero :
    nextIs (step (withRegs (placed 0x3000 [(0x3000, 0xF024), (0x4000, 0x4100)]) [(.r0, 0x4000)]))
      (fun t => t.output = []) = true := by decide +kernel

/-- S6: the image file `30 00 F0 25` halts after one cycle with PC = 0x3001. -/
theorem test_halt_image :
    (match loadFile .default [0x30, 0x00, 0xF0, 0x25] with
      | .ok s => nextIs (step s) fun t =>
          t = { State.reset with pc := 0x3001, mem := [(0x3000, 0xF025)], run := .halted }
      | .error _ => false) = true := by decide
theorem test_halt_ignored_bits : nextIs (step (one 0xFF25)) (fun t => t.run = .halted ∧ t.output = []) = true := by decide

theorem test_trap_unknown : nextIs (step (one 0xF026))
    (fun t => t = { one 0xF026 with pc := 0x3001, run := .faulted ⟨.unknownTrapVector, 15, 0x3000, 0xF026⟩ }) = true := by decide
theorem test_trap_keeps_ignored_bits : nextIs (step (one 0xFA1F))
    (fun t => t.run = .faulted ⟨.unknownTrapVector, 15, 0x3000, 0xFA1F⟩) = true := by decide
theorem test_rti : nextIs (step (one 0x8FFF))
    (fun t => t = { one 0x8FFF with pc := 0x3001, run := .faulted ⟨.unsupportedRTI, 8, 0x3000, 0x8FFF⟩ }) = true := by decide
theorem test_res : nextIs (step (one 0xD000))
    (fun t => t = { one 0xD000 with pc := 0x3001, run := .faulted ⟨.illegalOpcode, 13, 0x3000, 0xD000⟩ }) = true := by decide
theorem test_stopped : faultIs (step (setRun (one 0xD000) .halted)) .halted = true := by decide

/-- Whether a load succeeds, and the error where it does not. -/
def loadErrorOf (p : Params) (file : List Byte) : Option LoadError :=
  match loadFile p file with
  | .ok _ => none
  | .error e => some e

/-- Section 2.9. -/
theorem test_load_errors :
    loadErrorOf .default [0x30] = some .truncatedHeader ∧ loadErrorOf .default [0x30, 0x00, 0xF0] = some .oddLength ∧
      loadErrorOf .default [0xFD, 0xFF, 0, 1, 0, 2] = some .tooLarge ∧ loadErrorOf .default [0xFD, 0xFF, 0, 1] = none ∧
      loadErrorOf { Params.default with loadEnd := 0x10000 } [0xFF, 0xFF, 0, 1, 0, 2] = some .tooLarge ∧
      loadErrorOf .default [0x30, 0x00] = none := by decide

/-! ### Witnesses: for every statement with hypotheses, a state and operands that meet them all -/

/-- The hypotheses every rule's statement begins with. -/
abbrev Fetches (s : State) (w : Word) : Prop := s.run = .running ∧ loadWord s s.pc = w

theorem witness_DecodeEncodeAgree : Instr.wf (.br 7 0x1FF) = true ∧ Instr.wf (.trap 0xF 0xFF) = true := by decide

theorem witness_OnlyIgnoredBitsAreIgnored :
    ((0x14C4 : Word) ||| ignoredBits 0x14C4 = 0x14DC ||| ignoredBits 0x14C4 ∧ wordFaults 0x14C4 = false) ∧
      ((0xD000 : Word) ||| ignoredBits 0xD000 = 0xDABC ||| ignoredBits 0xD000 ∧ wordFaults 0xD000 = true) ∧
      ((0xF01F : Word) ||| ignoredBits 0xF01F = 0xFF1F ||| ignoredBits 0xF01F ∧ wordFaults 0xF01F = true) := by decide

theorem witness_BitFieldValue : ((0 : Nat) ≤ 0 ∧ 0 ≤ 15) ∧ ((0 : Nat) ≤ 15 ∧ 15 ≤ 15) ∧ (15 ≤ 15 ∧ 15 ≤ 15) := by decide

theorem witness_SignExtendValue :
    ((3 ≤ 3 ∧ 3 ≤ 11) ∧ (4 : Word).getLsbD (3 - 1) = true) ∧ ((3 ≤ 11 ∧ 11 ≤ 11) ∧ (0x3FF : Word).getLsbD (11 - 1) = false) := by
  decide

theorem witness_StepRunsDecodedInstruction : (one 0x14C4).run = .running ∧
    decode (loadWord (one 0x14C4) (one 0x14C4).pc) = .addReg .r2 .r3 .r4 := by decide

/-- Each of the three stores, with the next instruction as its target. -/
theorem witness_StoredWordIsFetchedNext :
    let s := withRegs (placed 0x3001 [(0x3002, 0x3001)]) [(.r1, 0x14A5), (.r2, 0x3001)]
    s.run = .running ∧ s.mem.wf = true ∧
      (storeSource (.st .r1 0) = some .r1 ∧ storeAddr (.st .r1 0) s = some s.pc ∧ nextIs (exec (.st .r1 0) s) (fun _ => true) = true) ∧
      (storeSource (.sti .r1 1) = some .r1 ∧ storeAddr (.sti .r1 1) s = some s.pc ∧ nextIs (exec (.sti .r1 1) s) (fun _ => true) = true) ∧
      (storeSource (.str .r1 .r2 0) = some .r1 ∧ storeAddr (.str .r1 .r2 0) s = some s.pc ∧
        nextIs (exec (.str .r1 .r2 0) s) (fun _ => true) = true) := by decide

theorem witness_StoppedMachineHasNoCycle : (setRun (one 0xF025) .halted).run = .halted ∧
    (setRun (one 0xD000) (.faulted ⟨.illegalOpcode, 13, 0x3000, 0xD000⟩)).run = .faulted ⟨.illegalOpcode, 13, 0x3000, 0xD000⟩ := by
  decide

/-- One Running machine for each of the statement's three outcomes. -/
theorem witness_NothingElseStopsACycle :
    ((one 0x14C4).run = .running ∧ nextIs (step (one 0x14C4)) (fun _ => true) = true) ∧
      ((withInput (one 0xF020) []).run = .running ∧ takeByte (withInput (one 0xF020) []).input = none) ∧
      ((filled 0xFFFF 0xF122).run = .running ∧ ∀ a, loadWord (filled 0xFFFF 0xF122) a ≠ 0) := by
  refine ⟨by decide, by decide, rfl, fun a => ?_⟩
  rw [loadWord_filled _ _ _ (by decide)]
  split_ifs with h1 h2
  · decide
  · decide
  · exact absurd (BitVec.eq_of_toNat_eq (by have := a.isLt; show a.toNat = 0xFFFF; omega)) h2

theorem witness_TerminalStatesExactly :
    nextIs (step (one 0xF01F)) (fun t => t.run = .faulted ⟨.unknownTrapVector, 15, 0x3000, 0xF01F⟩) = true ∧
      nextIs (step (one 0xF020)) (fun t => t.run = .running) = true ∧
      nextIs (step (one 0xF025)) (fun t => t.run = .halted) = true ∧
      nextIs (step (one 0xF026)) (fun t => t.run = .faulted ⟨.unknownTrapVector, 15, 0x3000, 0xF026⟩) = true := by decide

theorem witness_SetccClassifies :
    0x8000 ≤ (0x8000 : Word).toNat ∧ 0x8000 ≤ (0xFFFF : Word).toNat ∧ (0x0000 : Word) = 0 ∧
      (0x0001 ≤ (0x0001 : Word).toNat ∧ (0x0001 : Word).toNat ≤ 0x7FFF) ∧
      (0x0001 ≤ (0x7FFF : Word).toNat ∧ (0x7FFF : Word).toNat ≤ 0x7FFF) := by decide

theorem witness_ImmediateAgreesWithRegister : getReg (withRegs (one 0x14F0) [(.r4, 0xFFF0)]) .r4 = sext16 0x10#5 := by decide

theorem witness_AddRegisterRule : Fetches (one 0x14C4) 0x14C4 ∧ bits 0x14C4 15 12 = 1 ∧ bits 0x14C4 5 5 = 0 := by decide
theorem witness_AddImmediateRule : Fetches (one 0x14F0) 0x14F0 ∧ bits 0x14F0 15 12 = 1 ∧ bits 0x14F0 5 5 = 1 := by decide
theorem witness_AndRegisterRule : Fetches (one 0x5B87) 0x5B87 ∧ bits 0x5B87 15 12 = 5 ∧ bits 0x5B87 5 5 = 0 := by decide
theorem witness_AndImmediateRule : Fetches (one 0x5020) 0x5020 ∧ bits 0x5020 15 12 = 5 ∧ bits 0x5020 5 5 = 1 := by decide
theorem witness_NotRule : Fetches (one 0x92BF) 0x92BF ∧ bits 0x92BF 15 12 = 9 := by decide
theorem witness_LdRule : Fetches (one 0x2405) 0x2405 ∧ bits 0x2405 15 12 = 2 := by decide
theorem witness_LdiRule : Fetches (one 0xA203) 0xA203 ∧ bits 0xA203 15 12 = 10 := by decide
theorem witness_LdrRule : Fetches (one 0x62BF) 0x62BF ∧ bits 0x62BF 15 12 = 6 := by decide
theorem witness_LeaRule : Fetches (one 0xE004) 0xE004 ∧ bits 0xE004 15 12 = 14 := by decide
theorem witness_StoresComplete : (one 0x37FE).mem.wf = true := by decide
theorem witness_StRule : Fetches (one 0x37FE) 0x37FE ∧ (one 0x37FE).mem.wf = true ∧ bits 0x37FE 15 12 = 3 := by decide
theorem witness_StiRule : Fetches (one 0xB801) 0xB801 ∧ (one 0xB801).mem.wf = true ∧ bits 0xB801 15 12 = 11 := by decide
theorem witness_StrRule : Fetches (one 0x7182) 0x7182 ∧ (one 0x7182).mem.wf = true ∧ bits 0x7182 15 12 = 7 := by decide
theorem witness_BrRule : Fetches (one 0x03FD) 0x03FD ∧ bits 0x03FD 15 12 = 0 := by decide

/-- A last result in each of the classes the masks tell apart, at its ends, and a mask for each clause. -/
theorem witness_BranchSeesTheLastResult :
    0 < (0x0001 : Word).toInt ∧ 0 < (0x7FFF : Word).toInt ∧ (0 : Word).toInt = 0 ∧ (0x8000 : Word).toInt < 0 ∧
      (0xFFFF : Word).toInt < 0 ∧
      nextIs (exec (.br 0b001 5) (defineReg State.reset .r0 0x7FFF)) (fun t => t.pc = 0x3005) = true ∧
      nextIs (exec (.br 0b001 5) (defineReg State.reset .r0 0)) (fun t => t.pc = 0x3000) = true ∧
      nextIs (exec (.br 0b110 5) (defineReg State.reset .r0 0)) (fun t => t.pc = 0x3005) = true := by decide

theorem witness_JmpRule : Fetches (one 0xC0C0) 0xC0C0 ∧ bits 0xC0C0 15 12 = 12 := by decide
theorem witness_JsrRule : Fetches (one 0x4810) 0x4810 ∧ bits 0x4810 15 12 = 4 ∧ bits 0x4810 11 11 = 1 := by decide

/-- A base register other than R7, and R7 itself. -/
theorem witness_JsrrRule :
    (Fetches (one 0x4080) 0x4080 ∧ bits 0x4080 15 12 = 4 ∧ bits 0x4080 11 11 = 0 ∧ bits 0x4080 8 6 ≠ 7) ∧
      (Fetches (one 0x41C0) 0x41C0 ∧ bits 0x41C0 15 12 = 4 ∧ bits 0x41C0 11 11 = 0 ∧ bits 0x41C0 8 6 = 7) := by decide

theorem witness_TrapRoutinesComplete :
    takeByte (withInput State.reset [0x41]).input = some (0x41, { ready := [], tail := .silent, drawn := 0 }) ∧
      (takeByte State.reset.input).isSome = true ∧ loadWord State.reset 0x4000 = 0 ∧
      (lowByte (loadWord (placed 0x3000 [(0x4000, 0x0041)]) 0x4000) = 0 ∨
        highByte (loadWord (placed 0x3000 [(0x4000, 0x0041)]) 0x4000) = 0) := by decide

/-- The two clauses: a byte is there, and none ever comes. -/
theorem witness_GetcRule :
    (bits 0xF020 15 12 = 15 ∧ bits 0xF020 7 0 = 0x20) ∧
      (Fetches (withInput (one 0xF020) [0xFF]) 0xF020 ∧
        takeByte (withInput (one 0xF020) [0xFF]).input = some (0xFF, { ready := [], tail := .silent, drawn := 0 })) ∧
      (Fetches (withInput (one 0xF020) []) 0xF020 ∧ takeByte (withInput (one 0xF020) []).input = none) := by decide

theorem witness_OutRule : Fetches (one 0xF021) 0xF021 ∧ bits 0xF021 15 12 = 15 ∧ bits 0xF021 7 0 = 0x21 := by decide

/-- The string ends at its first word, at its third across the wrap, at the last word the scan visits, and nowhere. -/
theorem witness_PutsRule :
    (bits 0xF022 15 12 = 15 ∧ bits 0xF022 7 0 = 0x22) ∧
      (Fetches (one 0xF022) 0xF022 ∧ loadWord (one 0xF022) (getReg (one 0xF022) .r0 + BitVec.ofNat 16 0) = 0) ∧
      (let s := withRegs (placed 0x3000 [(0x3000, 0xF022), (0xFFFF, 0x0041), (0x0000, 0x0042)]) [(.r0, 0xFFFF)];
        Fetches s 0xF022 ∧ (∀ j, j < 2 → loadWord s (getReg s .r0 + BitVec.ofNat 16 j) ≠ 0) ∧
          loadWord s (getReg s .r0 + BitVec.ofNat 16 2) = 0) ∧
      (let s := withRegs (filled 0xFFFE 0xF022) [(.r0, 0xFFFF)];
        Fetches s 0xF022 ∧ (∀ j, j < 0xFFFF → loadWord s (getReg s .r0 + BitVec.ofNat 16 j) ≠ 0) ∧
          loadWord s (getReg s .r0 + BitVec.ofNat 16 0xFFFF) = 0) ∧
      (Fetches (filled 0xFFFF 0xF022) 0xF022 ∧ ∀ a, loadWord (filled 0xFFFF 0xF022) a ≠ 0) := by
  have key (n : Nat) (h : n ≤ 0xFFFF) (a : Word) (ha : a.toNat < n ∨ a = 0xFFFF) : loadWord (filled n 0xF022) a ≠ 0 := by
    rw [loadWord_filled _ _ _ h]
    split_ifs with h1 h2
    · decide
    · decide
    · exact absurd (ha.resolve_left h1) h2
  have last (n : Nat) (h : n ≤ 0xFFFF) : loadWord (filled n 0xF022) 0xFFFF = 0xF022 := by
    rw [loadWord_filled _ _ _ h, if_neg (by show ¬ 0xFFFF < n; omega), if_pos rfl]
  refine ⟨by decide, by decide, by decide, ⟨⟨rfl, last _ (by decide)⟩, fun j hj => ?_, ?_⟩, ⟨rfl, last _ (by decide)⟩, fun a => ?_⟩
  · refine key 0xFFFE (by decide) _ ?_
    rcases Nat.eq_zero_or_pos j with rfl | hp
    · exact .inr rfl
    · refine .inl ?_
      show ((0xFFFF : Word) + BitVec.ofNat 16 j).toNat < 0xFFFE
      rw [BitVec.toNat_add, BitVec.toNat_ofNat]
      show (0xFFFF + j % 0x10000) % 0x10000 < 0xFFFE
      omega
  · show loadWord (filled 0xFFFE 0xF022) 0xFFFE = 0
    rw [loadWord_filled _ _ _ (by decide)]; rfl
  · refine key 0xFFFF (by decide) a ?_
    have := a.isLt
    by_cases h : a.toNat < 0xFFFF
    · exact .inl h
    · exact .inr (BitVec.eq_of_toNat_eq (by show a.toNat = 0xFFFF; omega))

theorem witness_InRule :
    (bits 0xF023 15 12 = 15 ∧ bits 0xF023 7 0 = 0x23) ∧
      (Fetches (withInput (one 0xF023) [0x00]) 0xF023 ∧
        takeByte (withInput (one 0xF023) [0x00]).input = some (0x00, { ready := [], tail := .silent, drawn := 0 })) ∧
      (Fetches (withInput (one 0xF023) []) 0xF023 ∧ takeByte (withInput (one 0xF023) []).input = none) := by decide

/-- The string ends at its first word (in its low byte), at its second (in its high byte), and nowhere. -/
theorem witness_PutspRule :
    (bits 0xF024 15 12 = 15 ∧ bits 0xF024 7 0 = 0x24) ∧ (bits 0xF124 15 12 = 15 ∧ bits 0xF124 7 0 = 0x24) ∧
      (let s := withRegs (placed 0x3000 [(0x3000, 0xF024), (0x4000, 0x4100)]) [(.r0, 0x4000)];
        Fetches s 0xF024 ∧ endsPacked (loadWord s (getReg s .r0 + BitVec.ofNat 16 0))) ∧
      (let s := withRegs (placed 0x3000 [(0x3000, 0xF024), (0x4000, 0x6548), (0x4001, 0x006C)]) [(.r0, 0x4000)];
        Fetches s 0xF024 ∧ (∀ j, j < 1 → ¬ endsPacked (loadWord s (getReg s .r0 + BitVec.ofNat 16 j))) ∧
          endsPacked (loadWord s (getReg s .r0 + BitVec.ofNat 16 1))) ∧
      (Fetches (filled 0xFFFF 0xF124) 0xF124 ∧ ∀ a, ¬ endsPacked (loadWord (filled 0xFFFF 0xF124) a)) := by
  unfold endsPacked
  refine ⟨by decide, by decide, by decide, by decide, ⟨rfl, ?_⟩, fun a => ?_⟩
  · show loadWord (filled 0xFFFF 0xF124) 0xFFFF = 0xF124
    rw [loadWord_filled _ _ _ (by decide)]; rfl
  · rw [loadWord_filled _ _ _ (by decide)]
    split_ifs with h1 h2
    · decide
    · decide
    · exact absurd (BitVec.eq_of_toNat_eq (by have := a.isLt; show a.toNat = 0xFFFF; omega)) h2

theorem witness_HaltRule : Fetches (one 0xFF25) 0xFF25 ∧ bits 0xFF25 15 12 = 15 ∧ bits 0xFF25 7 0 = 0x25 := by decide

/-- The vectors next to the six on both sides. -/
theorem witness_UnknownVectorRule :
    (Fetches (one 0xF01F) 0xF01F ∧ bits 0xF01F 15 12 = 15 ∧ (bits 0xF01F 7 0).toNat < 0x20) ∧
      (Fetches (one 0xFF26) 0xFF26 ∧ bits 0xFF26 15 12 = 15 ∧ 0x25 < (bits 0xFF26 7 0).toNat) := by decide

theorem witness_ASuppliedByteEndsTheWait :
    faultIs (step (withInput (one 0xF020) [])) (.awaitingInput { withInput (one 0xF020) [] with pc := 0x3001 }) = true ∧
      faultIs (step (withInput (one 0xF023) []))
        (.awaitingInput { withInput (one 0xF023) [] with pc := 0x3001, output := Config.defaultPrompt }) = true := by decide

theorem witness_FaultingInstructionsComplete : definedVector 0x1F = false ∧ definedVector 0x26 = false := by decide

theorem witness_RtiRule : Fetches (one 0x8FFF) 0x8FFF ∧ bits 0x8FFF 15 12 = 8 := by decide
theorem witness_ReservedOpcodeRule : Fetches (one 0xDABC) 0xDABC ∧ bits 0xDABC 15 12 = 13 := by decide

theorem witness_RegistersWrittenAsTabled :
    Instr.wf (.addReg .r2 .r3 .r4) = true ∧ nextIs (exec (.addReg .r2 .r3 .r4) State.reset) (fun _ => true) = true ∧
      writtenReg (.addReg .r2 .r3 .r4) ≠ some .r3 := by decide

/-- An instruction that sets the flags, and one that does not. -/
theorem witness_PsrWrittenAsTabled :
    (nextIs (exec (.lea .r5 0) State.reset) (fun _ => true) = true ∧ setsFlags (.lea .r5 0) = true) ∧
      (nextIs (exec (.jsr 0) State.reset) (fun _ => true) = true ∧ setsFlags (.jsr 0) = false) := by decide

theorem witness_PcAfterAsTabled : nextIs (exec (.jsrr .r7) State.reset) (fun _ => true) = true := by decide

/-- A store, with an address it does not write, and an instruction that stores nothing. -/
theorem witness_MemoryWrittenOnlyByStores :
    (nextIs (exec (.st .r3 1) State.reset) (fun _ => true) = true ∧ storeAddr (.st .r3 1) State.reset = some 0x3001 ∧
        (0x3002 : Word) ≠ 0x3001) ∧
      (nextIs (exec (.ld .r3 1) State.reset) (fun _ => true) = true ∧ storeAddr (.ld .r3 1) State.reset = none) := by decide

/-- A routine that reads, one that writes, and an instruction that does neither. -/
theorem witness_StreamsTouchedOnlyByRoutines :
    (Instr.wf .getc = true ∧ nextIs (exec .getc (withInput State.reset [0x41])) (fun _ => true) = true ∧
        readsInput .getc = true ∧ writesOutput .getc = false) ∧
      (Instr.wf .out = true ∧ nextIs (exec .out State.reset) (fun _ => true) = true ∧
        readsInput .out = false ∧ writesOutput .out = true) ∧
      (Instr.wf .halt = true ∧ nextIs (exec .halt State.reset) (fun _ => true) = true ∧
        readsInput .halt = false ∧ writesOutput .halt = false) := by decide

/-- A state meeting the invariant, from which a step goes on, and one from which it faults. -/
theorem witness_StepKeepsTheInvariant :
    ((one 0x14C4).Inv ∧ nextIs (step (one 0x14C4)) (fun _ => true) = true) ∧
      ((one 0xD000).Inv ∧ nextIs (step (one 0xD000)) (fun t => t.run ≠ .running) = true) := by
  exact ⟨⟨⟨by decide, by decide, by decide, trivial⟩, by decide⟩, ⟨⟨by decide, by decide, by decide, trivial⟩, by decide⟩⟩

theorem witness_CanonicalMemoriesThatReadAlikeAreEqual :
    let m := memWrite (memWrite [] 1 5) 2 0
    let n := memWrite (memWrite (memWrite [] 2 7) 1 5) 2 0
    m.wf = true ∧ n.wf = true ∧ ∀ a, memRead m a = memRead n a := by
  refine ⟨by decide, by decide, fun a => ?_⟩
  rfl

/-- The last word below `LOAD_END`, at both ends of the range of `LOAD_END`, and the empty image. -/
theorem witness_LoadPlacesTheImage :
    (Params.default.wf ∧ (0xFDFF : Word).toNat + [(1 : Word)].length ≤ Params.default.loadEnd) ∧
      (({ Params.default with loadEnd := 0x10000 } : Params).wf ∧ (0xFFFF : Word).toNat + [(1 : Word)].length ≤ 0x10000) ∧
      (({ Params.default with loadEnd := 1 } : Params).wf ∧ (0 : Word).toNat + [(1 : Word)].length ≤ 1) ∧
      (0x3000 : Word).toNat + ([] : List Word).length ≤ Params.default.loadEnd := by decide

theorem witness_LoadedMachinesMeetTheInvariant :
    (match loadImage .default 0xFDFF [0xF025] with
      | .ok s => decide (loadWord s 0xFDFF = 0xF025)
      | .error _ => false) = true := by decide

/-- A file in each of the three clauses, and one on each side of `LOAD_END`. -/
theorem witness_ImageFilesAndLoadErrors :
    ([0x30] : List Byte).length < 2 ∧ (2 ≤ ([0x30, 0, 0xF0] : List Byte).length ∧ ([0x30, 0, 0xF0] : List Byte).length % 2 = 1) ∧
      (([0x30, 0] : List Byte).length = 2 * 0 + 2) ∧
      (([0xFD, 0xFF, 0, 1, 0, 2] : List Byte).length = 2 * 2 + 2 ∧ Params.default.loadEnd < 0xFDFF + 2) ∧
      (([0xFD, 0xFF, 0, 1] : List Byte).length = 2 * 1 + 2 ∧ 0xFDFF + 1 ≤ Params.default.loadEnd) := by decide

/-- A run the limit stops, one that halts within it, and one that faults. -/
theorem witness_CallerStopsOnlyBetweenCycles :
    runFor 0 (one 0xF025) = .stopped (one 0xF025) ∧
      runFor 1 (one 0xF025) = .halted { one 0xF025 with pc := 0x3001, run := .halted } ∧
      runFor 1 (one 0xD000) = .faulted ⟨.illegalOpcode, 13, 0x3000, 0xD000⟩
        { one 0xD000 with pc := 0x3001, run := .faulted ⟨.illegalOpcode, 13, 0x3000, 0xD000⟩ } := by decide

/-- A run without a limit that has a result, after more cycles than it needs. -/
theorem witness_RunsTo : RunsTo (one 0xF025) (.halted { one 0xF025 with pc := 0x3001, run := .halted }) :=
  ⟨2, by decide, fun _ => by simp⟩

end Sys2Proof.Tests
end

section
/-! The word-level units of the cycle, read as numbers: bit fields (spec/40_cycle_and_units.md R113) and sign extension
(R114); the codes `setcc` gives; and the obligations about them. -/

namespace Sys2Proof

/-- A bit field is a quotient and a remainder by powers of two (R113). -/
theorem toNat_bits (w : Word) (hi lo : Nat) (h : lo ≤ hi ∧ hi ≤ 15) :
    (bits w hi lo h).toNat = w.toNat / 2 ^ lo % 2 ^ (hi - lo + 1) := by
  rw [bits, BitVec.extractLsb_toNat, Nat.shiftRight_eq_div_pow]

/-- A field of one bit is that bit (R113). -/
theorem bits_self_eq_one_iff (w : Word) (i : Nat) (h : i ≤ i ∧ i ≤ 15) :
    bits w i i h = 1 ↔ w.getLsbD i = true := by
  rw [← BitVec.toNat_inj, toNat_bits, BitVec.getLsbD, Nat.testBit_eq_decide_div_mod_eq, decide_eq_true_iff]
  simp

/-- The field of all sixteen bits is the word (R113). -/
@[simp] theorem bits_15_0 (w : Word) : bits w 15 0 = w := by
  simp [← BitVec.toNat_inj, toNat_bits, w.isLt]

end Sys2Proof

namespace Sys2Proof.Machine

/-- A sign extension adds the bits above the field where the field's top bit is set (R114). -/
theorem toNat_sext16 {n : Nat} (f : BitVec n) (h : 3 ≤ n ∧ n ≤ 11) :
    (sext16 f h).toNat = f.toNat + if f.msb then 0x10000 - 2 ^ n else 0 := by
  rw [sext16, BitVec.toNat_signExtend, BitVec.toNat_setWidth_of_le (by omega)]

/-- A sign extension keeps the two's-complement value of the field (R114). -/
theorem toInt_sext16 {n : Nat} (f : BitVec n) (h : 3 ≤ n ∧ n ≤ 11) : (sext16 f h).toInt = f.toInt :=
  BitVec.toInt_signExtend_of_le (by omega)

/-- The sign of the low `n` bits of a word is its bit `n - 1`. -/
theorem msb_setWidth_word (w : Word) {n : Nat} (h : 0 < n) : (w.setWidth n).msb = w.getLsbD (n - 1) := by
  simp [BitVec.msb_setWidth, h]

/-! The code of each class of values (R115). -/

theorem ccOf_negative {v : Word} (h : 0x8000 ≤ v.toNat) : ccOf v = 0b100 := if_pos ((bit15_iff v).mpr h)

theorem ccOf_zero : ccOf 0 = 0b010 := by decide

theorem ccOf_positive {v : Word} (h : 1 ≤ v.toNat ∧ v.toNat ≤ 0x7FFF) : ccOf v = 0b001 := by
  obtain ⟨hn, _, _⟩ | ⟨h0, _, _⟩ | ⟨_, _, e⟩ := ccOf_cases v
  · omega
  · simp [h0] at h
  · exact e

/-- `setcc` writes nothing but PSR: with the old PSR put back, the state is the old one (R115). -/
theorem setPsr_setcc_self (s : State) (v : Word) : setPsr (setcc s v) s.psr = s := rfl

/-! The meanings of ADD and AND in both modes (spec/41_alu.md R130 to R133). -/

theorem exec_addReg (dr sr1 sr2 : Reg) (s : State) :
    exec (.addReg dr sr1 sr2) s = .next (defineReg s dr (getReg s sr1 + getReg s sr2)) := rfl

theorem exec_addImm (dr sr1 : Reg) (imm5 : BitVec 5) (s : State) :
    exec (.addImm dr sr1 imm5) s = .next (defineReg s dr (getReg s sr1 + sext16 imm5)) := rfl

theorem exec_andReg (dr sr1 sr2 : Reg) (s : State) :
    exec (.andReg dr sr1 sr2) s = .next (defineReg s dr (getReg s sr1 &&& getReg s sr2)) := rfl

theorem exec_andImm (dr sr1 : Reg) (imm5 : BitVec 5) (s : State) :
    exec (.andImm dr sr1 imm5) s = .next (defineReg s dr (getReg s sr1 &&& sext16 imm5)) := rfl

/-! ### The obligations of the cycle and its units -/

/-- Settles O5: a field is a quotient and a remainder by powers of two. -/
theorem bitFieldValue : Obligations.BitFieldValue :=
  ⟨toNat_bits, bits_self_eq_one_iff, bits_15_0⟩

/-- Settles O6: the field's top bit is the word's bit `n - 1`, and decides whether bits 15 down to `n` are set. -/
theorem signExtendValue : Obligations.SignExtendValue := by
  intro n h value
  refine ⟨?_, toInt_sext16 _ h⟩
  rw [toNat_sext16, msb_setWidth_word value (by omega), BitVec.toNat_setWidth]
  split <;> rfl

/-- Settles O12, class by class of the value. -/
theorem setccClassifies : Obligations.SetccClassifies := by
  intro s v
  rw [condOf_setcc]
  refine ⟨ccOf_negative, ?_, ccOf_positive, oneHot_ccOf v, bits_withCc_upper s.psr (ccOf v), setPsr_setcc_self s v⟩
  rintro rfl
  exact ccOf_zero

/-- Settles O14: both forms define DR by the same sum, or the same conjunction, once SR2 reads as the immediate. -/
theorem immediateAgreesWithRegister : Obligations.ImmediateAgreesWithRegister := by
  intro s dr sr1 sr2 imm5 h
  constructor
  · rw [exec_addImm, exec_addReg, h]
  · rw [exec_andImm, exec_andReg, h]

end Sys2Proof.Machine
end

section
/-! The encoding and the effect of ADD and AND together, from the word at PC (spec/41_alu.md R130 to R133). -/

namespace Sys2Proof.Machine

/-- A cycle whose instruction defines DR has that whole effect, with PC one past the instruction (R110, R116). -/
theorem step_defines {s : State} {i : Instr} {dr : Reg} {v : Word} (hrun : s.run = .running)
    (hdec : decode (loadWord s s.pc) = i)
    (hexec : exec i (advancePc s) = .next (defineReg (advancePc s) dr v)) :
    ∃ t, step s = .next t ∧ Defines s t (s.pc + 1) dr v := by
  refine ⟨defineReg (advancePc s) dr v, ?_, (defineReg_defines (advancePc s) dr v).of_advance⟩
  rw [step_of_running hrun, hdec, hexec]

/-- Settles O16: opcode 1 with bit 5 clear decodes to the register form of ADD. -/
theorem addRegisterRule : Obligations.AddRegisterRule := by
  rintro s _ hrun rfl hop hbit
  exact step_defines hrun (decode_addReg hop hbit) (exec_addReg _ _ _ (advancePc s))

/-- Settles O17: opcode 1 with bit 5 set decodes to the immediate form of ADD. -/
theorem addImmediateRule : Obligations.AddImmediateRule := by
  rintro s _ hrun rfl hop hbit
  exact step_defines hrun (decode_addImm hop hbit) (exec_addImm _ _ _ (advancePc s))

/-- Settles O18: opcode 5 with bit 5 clear decodes to the register form of AND. -/
theorem andRegisterRule : Obligations.AndRegisterRule := by
  rintro s _ hrun rfl hop hbit
  exact step_defines hrun (decode_andReg hop hbit) (exec_andReg _ _ _ (advancePc s))

/-- Settles O19: opcode 5 with bit 5 set decodes to the immediate form of AND. -/
theorem andImmediateRule : Obligations.AndImmediateRule := by
  rintro s _ hrun rfl hop hbit
  exact step_defines hrun (decode_andImm hop hbit) (exec_andImm _ _ _ (advancePc s))

end Sys2Proof.Machine
end

section
/-! The encoding and the effect of the loads, the stores and LEA together, from the word at PC (spec/42_data_movement.md
R140 to R147). -/

namespace Sys2Proof.Machine

/-! The addressing forms in the execute phase: the program counter is one past the instruction, the base register and the
pointer read as before the cycle (R110, R147). -/

@[simp] theorem pcRel9_advancePc (s : State) (off9 : BitVec 9) :
    pcRel9 (advancePc s) off9 = s.pc + 1 + sext16 off9 := rfl

@[simp] theorem indirect_advancePc (s : State) (off9 : BitVec 9) :
    indirect (advancePc s) off9 = loadWord s (s.pc + 1 + sext16 off9) := rfl

@[simp] theorem baseOff_advancePc (s : State) (base : Reg) (off6 : BitVec 6) :
    baseOff (advancePc s) base off6 = getReg s base + sext16 off6 := rfl

/-! The meanings of the loads, LEA and the stores (R140 to R146). -/

theorem exec_ld (dr : Reg) (off9 : BitVec 9) (s : State) :
    exec (.ld dr off9) s = .next (defineReg s dr (loadWord s (pcRel9 s off9))) := rfl

theorem exec_ldi (dr : Reg) (off9 : BitVec 9) (s : State) :
    exec (.ldi dr off9) s = .next (defineReg s dr (loadWord s (indirect s off9))) := rfl

theorem exec_ldr (dr base : Reg) (off6 : BitVec 6) (s : State) :
    exec (.ldr dr base off6) s = .next (defineReg s dr (loadWord s (baseOff s base off6))) := rfl

theorem exec_lea (dr : Reg) (off9 : BitVec 9) (s : State) :
    exec (.lea dr off9) s = .next (defineReg s dr (pcRel9 s off9)) := rfl

theorem exec_st (sr : Reg) (off9 : BitVec 9) (s : State) :
    exec (.st sr off9) s = .next (storeWord s (pcRel9 s off9) (getReg s sr)) := rfl

theorem exec_sti (sr : Reg) (off9 : BitVec 9) (s : State) :
    exec (.sti sr off9) s = .next (storeWord s (indirect s off9) (getReg s sr)) := rfl

theorem exec_str (sr base : Reg) (off6 : BitVec 6) (s : State) :
    exec (.str sr base off6) s = .next (storeWord s (baseOff s base off6) (getReg s sr)) := rfl

/-- A cycle whose instruction stores, in canonical memory, has that whole effect, with PC one past the instruction
(R52, R110). -/
theorem step_stores {s : State} {i : Instr} {a v : Word} (hrun : s.run = .running) (hmem : s.mem.wf = true)
    (hdec : decode (loadWord s s.pc) = i)
    (hexec : exec i (advancePc s) = .next (storeWord (advancePc s) a v)) :
    ∃ t, step s = .next t ∧ Stores s t (s.pc + 1) a v := by
  have hmem' : (advancePc s).mem.wf = true := hmem
  refine ⟨storeWord (advancePc s) a v, ?_, (storeWord_stores hmem' a v).of_advance⟩
  rw [step_of_running hrun, hdec, hexec]

/-! ### The obligations of data movement -/

/-- Settles O22: opcode 2 decodes to LD, whose address is taken from the advanced PC. -/
theorem ldRule : Obligations.LdRule := by
  rintro s _ hrun rfl hop
  exact step_defines hrun (decode_ld hop) (by simp [exec_ld, regHi])

/-- Settles O23: opcode 10 decodes to LDI, which defines DR by the word and not by the pointer. -/
theorem ldiRule : Obligations.LdiRule := by
  rintro s _ hrun rfl hop
  exact step_defines hrun (decode_ldi hop) (by simp [exec_ldi, regHi])

/-- Settles O24: opcode 6 decodes to LDR, whose address is computed before DR is written. -/
theorem ldrRule : Obligations.LdrRule := by
  rintro s _ hrun rfl hop
  exact step_defines hrun (decode_ldr hop) (by simp [exec_ldr, regHi, regMid])

/-- Settles O25: opcode 14 decodes to LEA, which defines DR by the address itself. -/
theorem leaRule : Obligations.LeaRule := by
  rintro s _ hrun rfl hop
  exact step_defines hrun (decode_lea hop) (by simp [exec_lea, regHi])

/-- Settles O27: opcode 3 decodes to ST, whose address is taken from the advanced PC. -/
theorem stRule : Obligations.StRule := by
  rintro s _ hrun hmem rfl hop
  exact step_stores hrun hmem (decode_st hop) (by simp [exec_st, regHi])

/-- Settles O28: opcode 11 decodes to STI, whose pointer is read before the write. -/
theorem stiRule : Obligations.StiRule := by
  rintro s _ hrun hmem rfl hop
  exact step_stores hrun hmem (decode_sti hop) (by simp [exec_sti, regHi])

/-- Settles O29: opcode 7 decodes to STR, whose address and value are read from the registers as they were. -/
theorem strRule : Obligations.StrRule := by
  rintro s _ hrun hmem rfl hop
  exact step_stores hrun hmem (decode_str hop) (by simp [exec_str, regHi, regMid])

end Sys2Proof.Machine
end

section
/-! The encoding and the effect of JMP and JSR together, from the word at PC (spec/43_control.md R162, R163). -/

namespace Sys2Proof.Machine

/-- JSR's target in the execute phase: the offset is added to the program counter one past the instruction (R110, R163). -/
@[simp] theorem pcRel11_advancePc (s : State) (off11 : BitVec 11) :
    pcRel11 (advancePc s) off11 = s.pc + 1 + sext16 off11 := rfl

/-! The meanings of JMP and JSR (R162, R163). -/

theorem exec_jmp (base : Reg) (s : State) : exec (.jmp base) s = .next (setPc s (getReg s base)) := rfl

theorem exec_jsr (off11 : BitVec 11) (s : State) :
    exec (.jsr off11) s = .next (setPc (linkR7 s) (pcRel11 s off11)) := rfl

/-- A cycle whose instruction only writes PC has that whole effect (R110). -/
theorem step_jumps {s : State} {i : Instr} {v : Word} (hrun : s.run = .running)
    (hdec : decode (loadWord s s.pc) = i) (hexec : exec i (advancePc s) = .next (setPc (advancePc s) v)) :
    ∃ t, step s = .next t ∧ Jumps s t v := by
  refine ⟨setPc (advancePc s) v, ?_, (setPc_jumps (advancePc s) v).of_advance⟩
  rw [step_of_running hrun, hdec, hexec]

/-- A cycle whose instruction links in R7 and writes PC has that whole effect, with the link one past the instruction
(R21, R110). -/
theorem step_calls {s : State} {i : Instr} {v : Word} (hrun : s.run = .running)
    (hdec : decode (loadWord s s.pc) = i) (hexec : exec i (advancePc s) = .next (setPc (linkR7 (advancePc s)) v)) :
    ∃ t, step s = .next t ∧ Calls s t v (s.pc + 1) := by
  refine ⟨setPc (linkR7 (advancePc s)) v, ?_, (setPc_linkR7_calls (advancePc s) v).of_advance⟩
  rw [step_of_running hrun, hdec, hexec]

/-! ### The obligations of control transfer -/

/-- Settles O33: opcode 12 decodes to JMP, whose base register reads as before the cycle. -/
theorem jmpRule : Obligations.JmpRule := by
  rintro s _ hrun rfl hop
  exact step_jumps hrun (decode_jmp hop) (by simp [exec_jmp, regMid])

/-- Settles O34: opcode 4 with bit 11 set decodes to JSR, whose link and target are both taken from the advanced PC. -/
theorem jsrRule : Obligations.JsrRule := by
  rintro s _ hrun rfl hop hbit
  exact step_calls hrun (decode_jsr hop hbit) (by simp [exec_jsr])

end Sys2Proof.Machine
end

section
/-! The encoding and the effect of OUT, and of TRAP with a vector that has no routine, together, from the word at PC
(spec/44_trap.md R178, R184). -/

namespace Sys2Proof.Machine

/-- The vectors without a routine lie below or above the six that have one (R88, R89). -/
theorem definedVector_eq_false_iff (v : BitVec 8) : definedVector v = false ↔ v.toNat < 0x20 ∨ 0x25 < v.toNat := by
  simp [definedVector, imp_iff_not_or]

/-! The meanings of OUT and of the generic TRAP row (R178, R184). -/

theorem exec_out (s : State) : exec .out s = .next (writeChars s [bits (getReg s .r0) 7 0]) := rfl

theorem exec_trap_undefined {ign4 : BitVec 4} {vect8 : BitVec 8} (h : definedVector vect8 = false) (s : State) :
    exec (.trap ign4 vect8) s = .next (raiseFault .unknownTrapVector (encodeTrapf ign4 vect8) s) :=
  execTrap_undefined h s

/-- A cycle whose instruction only writes characters has that whole effect, with PC one past the instruction
(R39, R110). -/
theorem step_writes {s : State} {i : Instr} {bs : List Byte} (hrun : s.run = .running)
    (hdec : decode (loadWord s s.pc) = i) (hexec : exec i (advancePc s) = .next (writeChars (advancePc s) bs)) :
    ∃ t, step s = .next t ∧ Writes s t (s.pc + 1) bs := by
  refine ⟨writeChars (advancePc s) bs, ?_, (writeChars_writes (advancePc s) bs).of_advance⟩
  rw [step_of_running hrun, hdec, hexec]

/-- A cycle whose instruction raises a fault ends Faulted, and the record holds the address and the word of that
instruction, not the advanced PC (R110, R201). -/
theorem step_faults {s : State} {i : Instr} {cause : FaultCause} {ir : Word} (hrun : s.run = .running)
    (hdec : decode (loadWord s s.pc) = i) (hexec : exec i (advancePc s) = .next (raiseFault cause ir (advancePc s))) :
    ∃ t, step s = .next t ∧ Stops s t (s.pc + 1) (.faulted ⟨cause, bits ir 15 12, s.pc, ir⟩) := by
  have hstops := (raiseFault_stops cause ir (advancePc s)).of_advance
  rw [advancePc_pc, BitVec.add_sub_cancel] at hstops
  refine ⟨raiseFault cause ir (advancePc s), ?_, hstops⟩
  rw [step_of_running hrun, hdec, hexec]

/-! ### The obligations of TRAP -/

/-- Settles O38: opcode 15 with vector 0x21 decodes to OUT, which reads R0 as before the cycle. -/
theorem outRule : Obligations.OutRule := by
  rintro s _ hrun rfl hop hvec
  exact step_writes hrun (decode_out hop hvec) (exec_out (advancePc s))

/-- Settles O43: opcode 15 with any other vector decodes to the generic TRAP row, whose ignored bits and vector rebuild the
word for the record. -/
theorem unknownVectorRule : Obligations.UnknownVectorRule := by
  rintro s _ hrun rfl hop hvec
  have hundef := (definedVector_eq_false_iff _).mpr hvec
  have hexec := exec_trap_undefined (ign4 := bits (loadWord s s.pc) 11 8) hundef (advancePc s)
  rw [encodeTrapf_of_bits hop] at hexec
  rw [← hop]
  exact step_faults hrun (decode_trap hop hundef) hexec

end Sys2Proof.Machine
end

section
/-! The encoding and the effect of the reserved opcode together, from the word at PC (spec/45_system.md R196). -/

namespace Sys2Proof.Machine

/-- The meaning of the reserved opcode (R196). -/
theorem exec_res (low12 : BitVec 12) (s : State) :
    exec (.res low12) s = .next (raiseFault .illegalOpcode (encodeNone .res low12) s) := rfl

/-- Settles O47: opcode 13 decodes to the reserved opcode, whose ignored bits rebuild the word for the record. -/
theorem reservedOpcodeRule : Obligations.ReservedOpcodeRule := by
  rintro s _ hrun rfl hop
  have hexec := exec_res (bits (loadWord s s.pc) 11 0) (advancePc s)
  rw [encodeNone_of_bits hop] at hexec
  rw [← hop]
  exact step_faults hrun (decode_res hop) hexec

end Sys2Proof.Machine
end

section
/-! The start-up procedure: where `writeImage` puts the words of an image, and the state the machine is created in
(spec/70_reset_and_hazards.md R232, R237). -/

namespace Sys2Proof.Machine

/-- The `k`-th address from `a`, as a number, where the count does not wrap (R232). -/
theorem toNat_addr_add {a : Word} {k : Nat} (h : a.toNat + k < 0x10000) :
    (a + BitVec.ofNat 16 k).toNat = a.toNat + k := by
  rw [BitVec.toNat_add, BitVec.toNat_ofNat]
  omega

/-- Fewer than 0x10000 steps past an address do not lead back to it. -/
theorem addr_ne_succ_add (a : Word) {k : Nat} (h : k + 1 < 0x10000) : a ≠ a + 1 + BitVec.ofNat 16 k := by
  rw [scanAddr_succ, Ne, BitVec.self_eq_add_right, ← BitVec.toNat_inj, BitVec.toNat_ofNat]
  simp only [BitVec.toNat_zero]
  omega

/-- The image's words go to the addresses from `a` up and nowhere else (R232). -/
theorem memRead_writeImage_ne {image : List Word} {m : Mem} {a b : Word}
    (h : ∀ k, k < image.length → b ≠ a + BitVec.ofNat 16 k) :
    memRead (writeImage m a image) b = memRead m b := by
  induction image generalizing m a with
  | nil => rfl
  | cons v rest ih =>
    have hhead : b ≠ a := by simpa using h 0 (Nat.succ_pos _)
    have htail : ∀ k, k < rest.length → b ≠ a + 1 + BitVec.ofNat 16 k := fun k hk => by
      rw [scanAddr_succ]; exact h (k + 1) (Nat.succ_lt_succ hk)
    rw [writeImage, ih htail, memRead_memWrite_ne m v hhead]

/-- The `k`-th word of an image no longer than memory ends up at the `k`-th address from `a` (R232). -/
theorem memRead_writeImage {image : List Word} {m : Mem} {a : Word} (hm : m.wf = true)
    (hlen : image.length ≤ 0x10000) {k : Nat} (hk : k < image.length) :
    memRead (writeImage m a image) (a + BitVec.ofNat 16 k) = image[k] := by
  induction image generalizing m a k with
  | nil => exact absurd hk (Nat.not_lt_zero k)
  | cons v rest ih =>
    rw [List.length_cons] at hlen hk
    cases k with
    | zero =>
      have hkept : memRead (writeImage (memWrite m a v) (a + 1) rest) a = memRead (memWrite m a v) a :=
        memRead_writeImage_ne fun k hk => addr_ne_succ_add a (by omega)
      rw [writeImage, BitVec.add_zero, hkept]
      exact memRead_memWrite_self hm a v
    | succ k =>
      rw [writeImage, ← scanAddr_succ]
      exact ih (memWrite_wf hm a v) (by omega) (by omega)

/-- An image that passes the check of R237 creates a machine (R232). -/
theorem loadImage_of_fits {p : Params} {origin : Word} {image : List Word}
    (h : origin.toNat + image.length ≤ p.loadEnd) :
    loadImage p origin image = .ok (.created p origin (writeImage [] origin image)) := if_pos h

@[simp] theorem loadWord_created (p : Params) (origin : Word) (m : Mem) (a : Word) :
    loadWord (.created p origin m) a = memRead m a := rfl

/-- A machine just created has every register zero (R40). -/
@[simp] theorem getReg_created (p : Params) (origin : Word) (m : Mem) (r : Reg) :
    getReg (.created p origin m) r = 0 := by cases r <;> rfl

/-- Settles O57: LOAD_END is at most the size of memory, so no address of the image wraps. -/
theorem loadPlacesTheImage : Obligations.LoadPlacesTheImage := by
  rintro p origin image ⟨_, hend⟩ hfits
  refine ⟨_, loadImage_of_fits hfits, fun k hk => ?_, fun a ha => ?_, getReg_created p origin _, rfl, rfl, rfl, rfl⟩
  · rw [loadWord_created, memRead_writeImage rfl (by omega) hk]
  · rw [loadWord_created, memRead_writeImage_ne, memRead_nil]
    rintro k hk rfl
    rw [toNat_addr_add (by omega)] at ha
    omega

end Sys2Proof.Machine
end

section
/-! What `exec` can answer, said once: each instruction's meaning in the shared operations, beside what the tables of
Safety.lean let the instruction touch (spec/10_state.md R22, R24, R30; spec/40_cycle_and_units.md R111). -/

namespace Sys2Proof.Machine

/-! ### The meanings not stated before -/

theorem exec_not (dr sr : Reg) (s : State) :
    exec (.not dr sr) s = .next (defineReg s dr (~~~(getReg s sr))) := rfl

/-- A branch that is not taken writes PC with what it holds (R160). -/
theorem exec_br (mask : BitVec 3) (off9 : BitVec 9) (s : State) :
    exec (.br mask off9) s =
      .next (setPc s (if mask &&& condOf s ≠ 0 then s.pc + sext16 off9 else s.pc)) := by
  show Host.Outcome.next (if mask &&& condOf s ≠ 0 then _ else s) = _
  split <;> rfl

/-- Only JSRR R7 can tell the two settings of JSRR_LINK_FIRST apart (R164). -/
theorem exec_jsrr (base : Reg) (s : State) :
    exec (.jsrr base) s = .next (setPc (linkR7 s)
      (if base = .r7 ∧ s.params.jsrrLinkFirst = true then s.pc else getReg s base)) := by
  show Host.Outcome.next (jumpLinked s.params.jsrrLinkFirst base s) = _
  cases s.params.jsrrLinkFirst <;> simp [jumpLinked, linkR7, getReg_setReg]

theorem exec_rti (low12 : BitVec 12) (s : State) :
    exec (.rti low12) s = .next (raiseFault .unsupportedRTI (encodeNone .rti low12) s) := rfl

theorem exec_halt (s : State) : exec .halt s = .next (setRun s .halted) := rfl

theorem exec_getc_of_takeByte {s : State} {c : Byte} {rest : InputStream} (h : takeByte s.input = some (c, rest)) :
    exec .getc s = .next (setReg (setInput s rest) .r0 (zext16 c)) :=
  execGetc_of_takeByte h

theorem exec_inChar_of_takeByte {s : State} {c : Byte} {rest : InputStream} (h : takeByte s.input = some (c, rest)) :
    exec .inChar s = .next (setReg (setInput (writeChars s (s.params.inPrompt ++ [c])) rest) .r0 (zext16 c)) :=
  execIn_of_takeByte h

theorem exec_getc_blocked {s : State} (h : takeByte s.input = none) : exec .getc s = .fault (.awaitingInput s) :=
  execGetc_blocked h

theorem exec_inChar_blocked {s : State} (h : takeByte s.input = none) :
    exec .inChar s = .fault (.awaitingInput (writeChars s s.params.inPrompt)) :=
  execIn_blocked h

theorem exec_puts_of_scan {s : State} {bs : List Byte} (h : putsScan scanBound s.mem (getReg s .r0) = some bs) :
    exec .puts s = .next (writeChars s bs) := by
  show execPuts s = _
  simp [execPuts, h]

theorem exec_puts_endless {s : State} (h : putsScan scanBound s.mem (getReg s .r0) = none) :
    exec .puts s = .fault .endlessScan := by
  show execPuts s = _
  simp [execPuts, h]

theorem exec_putsp_of_scan {s : State} {bs : List Byte} (h : putspScan scanBound s.mem (getReg s .r0) = some bs) :
    exec .putsp s = .next (writeChars s bs) := by
  show execPutsp s = _
  simp [execPutsp, h]

theorem exec_putsp_endless {s : State} (h : putspScan scanBound s.mem (getReg s .r0) = none) :
    exec .putsp s = .fault .endlessScan := by
  show execPutsp s = _
  simp [execPutsp, h]

/-! ### The scans over all of memory -/

/-- PUTS scans for ever just if no word of memory is zero: its scan comes past every one (R179). -/
theorem putsScan_endless_iff (s : State) (a : Word) :
    putsScan scanBound s.mem a = none ↔ ∀ b, loadWord s b ≠ 0 := by
  rw [putsScan_eq_none]
  constructor
  · intro h b
    obtain ⟨k, hk, rfl⟩ := scanAddr_reaches a b
    exact h k hk
  · exact fun h k _ => h _

/-- PUTSP scans for ever just if no word of memory has a zero byte (R181). -/
theorem putspScan_endless_iff (s : State) (a : Word) :
    putspScan scanBound s.mem a = none ↔ ∀ b, ¬ endsPacked (loadWord s b) := by
  rw [putspScan_eq_none]
  constructor
  · intro h b
    obtain ⟨k, hk, rfl⟩ := scanAddr_reaches a b
    exact h k hk
  · exact fun h k _ => h _

/-- A zero word ends PUTSP's scan too. -/
theorem ne_zero_of_not_endsPacked {w : Word} (h : ¬ endsPacked w) : w ≠ 0 := by
  rintro rfl
  exact h (.inl rfl)

/-! ### What an instruction may touch -/

/-- The run state at the end of the cycle, beside the tables of Safety.lean: the three faults with their records (R35, R201),
and HALT (R183). -/
def runAfter (i : Instr) (s : State) : RunState :=
  match i with
  | .rti _ => .faulted ⟨.unsupportedRTI, bits (encode i) 15 12, s.pc - 1, encode i⟩
  | .res _ => .faulted ⟨.illegalOpcode, bits (encode i) 15 12, s.pc - 1, encode i⟩
  | .trap _ _ => .faulted ⟨.unknownTrapVector, bits (encode i) 15 12, s.pc - 1, encode i⟩
  | .halt => .halted
  | .br _ _ | .jmp _ | .jsr _ | .jsrr _ | .addReg _ _ _ | .addImm _ _ _ | .andReg _ _ _ | .andImm _ _ _ | .not _ _
  | .ld _ _ | .st _ _ | .ldi _ _ | .sti _ _ | .ldr _ _ _ | .str _ _ _ | .lea _ _ | .getc | .out | .puts | .inChar
  | .putsp => s.run

/-- A row of the tables: the register written, whether the flags are, the program counter afterwards, the address stored
to, whether characters are written and read, and the run state afterwards. -/
structure Touches where
  reg : Option Reg
  flags : Bool
  pc : Word
  addr : Option Word
  output : Bool
  input : Bool
  run : RunState

/-- The row of an instruction in a state. -/
def touches (i : Instr) (s : State) : Touches :=
  { reg := writtenReg i, flags := setsFlags i, pc := pcAfter i s, addr := storeAddr i s, output := writesOutput i,
    input := readsInput i, run := runAfter i s }

/-- The row that leaves everything alone. -/
def Touches.nothing (s : State) : Touches :=
  { reg := none, flags := false, pc := s.pc, addr := none, output := false, input := false, run := s.run }

/-- Everything an instruction can answer, one constructor for each shape of effect, with the row of the tables that the
effect keeps to. No shape is a refusal. -/
inductive Effect (i : Instr) (s : State) : Host.Outcome State Fault Refusal → Prop where
  | defines (dr : Reg) (v : Word) (row : touches i s = { Touches.nothing s with reg := some dr, flags := true }) :
      Effect i s (.next (defineReg s dr v))
  | stores (a v : Word) (row : touches i s = { Touches.nothing s with addr := some a }) :
      Effect i s (.next (storeWord s a v))
  | jumps (v : Word) (row : touches i s = { Touches.nothing s with pc := v }) : Effect i s (.next (setPc s v))
  | calls (v : Word) (row : touches i s = { Touches.nothing s with reg := some .r7, pc := v }) :
      Effect i s (.next (setPc (linkR7 s) v))
  | writes (bs : List Byte) (row : touches i s = { Touches.nothing s with output := true }) :
      Effect i s (.next (writeChars s bs))
  | receives (c : Byte) (rest : InputStream) (bs : List Byte) (echoes : Bool)
      (row : touches i s = { Touches.nothing s with reg := some .r0, input := true, output := echoes })
      (taken : takeByte s.input = some (c, rest)) (silent : echoes = false → bs = []) :
      Effect i s (.next (setReg (setInput (writeChars s bs) rest) .r0 (zext16 c)))
  | stops (run' : RunState) (row : touches i s = { Touches.nothing s with run := run' }) :
      Effect i s (.next (setRun s run'))
  | waits (bs : List Byte) (reads : i = .getc ∨ i = .inChar) (blocked : takeByte s.input = none) :
      Effect i s (.fault (.awaitingInput (writeChars s bs)))
  | scans (scan : i = .puts ∨ i = .putsp) (endless : ∀ a, loadWord s a ≠ 0) : Effect i s (.fault .endlessScan)

/-- Every well-formed instruction answers in one of the shapes. -/
theorem exec_effect {i : Instr} (hwf : i.wf = true) (s : State) : Effect i s (exec i s) := by
  cases i with
  | addReg dr _ _ | addImm dr _ _ | andReg dr _ _ | andImm dr _ _ | not dr _ | ld dr _ | ldi dr _ | ldr dr _ _
  | lea dr _ => exact .defines dr _ rfl
  | st _ _ | sti _ _ | str _ _ _ => exact .stores _ _ rfl
  | br mask off9 => rw [exec_br]; exact .jumps _ rfl
  | jmp base => exact .jumps _ rfl
  | jsr off11 => exact .calls _ rfl
  | jsrr base => rw [exec_jsrr]; exact .calls _ rfl
  | rti _ | res _ | halt => exact .stops _ rfl
  | trap ign4 vect8 => rw [exec_trap_undefined (by simpa [Instr.wf] using hwf)]; exact .stops _ rfl
  | out => exact .writes _ rfl
  | puts =>
    cases hscan : putsScan scanBound s.mem (getReg s .r0) with
    | some bs => rw [exec_puts_of_scan hscan]; exact .writes bs rfl
    | none => rw [exec_puts_endless hscan]; exact .scans (.inl rfl) ((putsScan_endless_iff s _).mp hscan)
  | putsp =>
    cases hscan : putspScan scanBound s.mem (getReg s .r0) with
    | some bs => rw [exec_putsp_of_scan hscan]; exact .writes bs rfl
    | none =>
      rw [exec_putsp_endless hscan]
      exact .scans (.inr rfl) fun a => ne_zero_of_not_endsPacked ((putspScan_endless_iff s _).mp hscan a)
  | getc =>
    cases htake : takeByte s.input with
    | some taken =>
      rw [exec_getc_of_takeByte htake]
      simpa only [writeChars_nil] using
        Effect.receives (i := .getc) (s := s) taken.1 taken.2 [] false rfl htake fun _ => rfl
    | none =>
      rw [exec_getc_blocked htake]
      simpa only [writeChars_nil] using Effect.waits (i := .getc) (s := s) [] (.inl rfl) htake
  | inChar =>
    cases htake : takeByte s.input with
    | some taken => rw [exec_inChar_of_takeByte htake]; exact .receives taken.1 taken.2 _ true rfl htake (by simp)
    | none => rw [exec_inChar_blocked htake]; exact .waits _ (.inr rfl) htake

/-- Whatever next state a well-formed instruction gives, one of the shapes gives it. -/
theorem effect_of_exec {i : Instr} {s t : State} (hwf : i.wf = true) (h : exec i s = .next t) : Effect i s (.next t) :=
  h ▸ exec_effect hwf s

/-! ### Ill-formed instructions -/

/-- The six vectors with a routine, one by one (R88). -/
theorem definedVector_cases {v : BitVec 8} (h : definedVector v = true) :
    v = 0x20 ∨ v = 0x21 ∨ v = 0x22 ∨ v = 0x23 ∨ v = 0x24 ∨ v = 0x25 := by
  simp only [definedVector, Bool.and_eq_true, decide_eq_true_eq] at h
  bv_omega

/-- An ill-formed instruction is the generic TRAP with the vector of a routine. It executes as that routine (R175), which
writes no flags and no memory and leaves PC as incremented, as TRAP does (R182). -/
theorem exists_wf_exec_eq (i : Instr) (s : State) : ∃ j : Instr, j.wf = true ∧ exec i s = exec j s ∧
    setsFlags j = setsFlags i ∧ pcAfter j s = pcAfter i s ∧ storeAddr j s = storeAddr i s := by
  cases hwf : i.wf with
  | true => exact ⟨i, hwf, rfl, rfl, rfl, rfl⟩
  | false =>
    cases i with
    | trap ign4 vect8 =>
      obtain rfl | rfl | rfl | rfl | rfl | rfl := definedVector_cases (by simpa [Instr.wf] using hwf)
      exacts [⟨.getc, rfl, rfl, rfl, rfl, rfl⟩, ⟨.out, rfl, rfl, rfl, rfl, rfl⟩, ⟨.puts, rfl, rfl, rfl, rfl, rfl⟩,
        ⟨.inChar, rfl, rfl, rfl, rfl, rfl⟩, ⟨.putsp, rfl, rfl, rfl, rfl, rfl⟩, ⟨.halt, rfl, rfl, rfl, rfl, rfl⟩]
    | _ => cases hwf

/-! ### The frames -/

/-- Settles O48: of the shapes, three write a register, each the tabled one. -/
theorem registersWrittenAsTabled : Obligations.RegistersWrittenAsTabled := by
  intro i s t r hwf hexec hr
  cases effect_of_exec hwf hexec with
  | defines dr v row =>
    have hdr : writtenReg i = some dr := congrArg Touches.reg row
    exact getReg_setReg_ne s v fun heq => hr (heq ▸ hdr)
  | calls v row =>
    have hlink : writtenReg i = some .r7 := congrArg Touches.reg row
    exact getReg_setReg_ne s s.pc fun heq => hr (heq ▸ hlink)
  | receives c rest bs echoes row =>
    have hr0 : writtenReg i = some .r0 := congrArg Touches.reg row
    exact getReg_setReg_ne _ _ fun heq => hr (heq ▸ hr0)
  | stores | jumps | writes | stops => rfl

/-- Settles O49: only a defining instruction writes PSR, and it writes the code of its result. -/
theorem psrWrittenAsTabled : Obligations.PsrWrittenAsTabled := by
  intro i s t hexec
  obtain ⟨j, hwf, hexecj, hflags, -, -⟩ := exists_wf_exec_eq i s
  rw [← hflags]
  cases effect_of_exec hwf (hexecj ▸ hexec) with
  | defines dr v row =>
    have hsets : setsFlags j = true := congrArg Touches.flags row
    exact ⟨bits_withCc_upper s.psr (ccOf v), fun h => absurd (hsets.symm.trans h) (by decide),
      fun _ => by rw [condOf_defineReg]; exact oneHot_ccOf v⟩
  | stores _ _ row | jumps _ row | calls _ row | writes _ row | receives _ _ _ _ row | stops _ row =>
    have hkeeps : setsFlags j = false := congrArg Touches.flags row
    exact ⟨rfl, fun _ => rfl, fun h => absurd (hkeeps.symm.trans h) (by decide)⟩

/-- Settles O50: every shape leaves PC as the table gives it. -/
theorem pcAfterAsTabled : Obligations.PcAfterAsTabled := by
  intro i s t hexec
  obtain ⟨j, hwf, hexecj, -, hpc, -⟩ := exists_wf_exec_eq i s
  rw [← hpc]
  cases effect_of_exec hwf (hexecj ▸ hexec) with
  | defines _ _ row | stores _ _ row | jumps _ row | calls _ row | writes _ row | receives _ _ _ _ row | stops _ row =>
    exact (congrArg Touches.pc row).symm

/-- Settles O51: only a store writes memory, at the tabled address. -/
theorem memoryWrittenOnlyByStores : Obligations.MemoryWrittenOnlyByStores := by
  intro i s t hexec
  obtain ⟨j, hwf, hexecj, -, -, haddr⟩ := exists_wf_exec_eq i s
  rw [← haddr]
  cases effect_of_exec hwf (hexecj ▸ hexec) with
  | stores a v row =>
    have hat : storeAddr j s = some a := congrArg Touches.addr row
    rw [hat]
    refine ⟨fun a' ha' b hb => ?_, fun h => by cases h⟩
    cases ha'
    exact loadWord_storeWord_ne s v hb
  | defines | jumps | calls | writes | receives | stops => exact ⟨fun _ _ _ _ => rfl, fun _ _ => rfl⟩

/-- Settles O52: one shape writes characters, one takes a byte, and none changes a parameter. -/
theorem streamsTouchedOnlyByRoutines : Obligations.StreamsTouchedOnlyByRoutines := by
  intro i s t hwf hexec
  cases effect_of_exec hwf hexec with
  | defines _ _ row | stores _ _ row | jumps _ row | calls _ row | stops _ row =>
    have hin : readsInput i = false := congrArg Touches.input row
    exact ⟨⟨[], (List.append_nil _).symm⟩, fun _ => rfl, fun _ => rfl, fun h => absurd (hin.symm.trans h) (by decide), rfl⟩
  | writes bs row =>
    have hin : readsInput i = false := congrArg Touches.input row
    have hout : writesOutput i = true := congrArg Touches.output row
    exact ⟨⟨bs, rfl⟩, fun h => absurd (hout.symm.trans h) (by decide), fun _ => rfl,
      fun h => absurd (hin.symm.trans h) (by decide), rfl⟩
  | receives c rest bs echoes row taken silent =>
    have hin : readsInput i = true := congrArg Touches.input row
    have hout : writesOutput i = echoes := congrArg Touches.output row
    refine ⟨⟨bs, rfl⟩, fun h => ?_, fun h => absurd (hin.symm.trans h) (by decide), fun _ => ⟨c, taken⟩, rfl⟩
    rw [silent (hout.symm.trans h)]
    exact List.append_nil _

end Sys2Proof.Machine
end

section
/-! The decoder against the encoder (spec/30_encoding.md R81, R86), against the opcode table (R85, R88, R89), and the bits
it ignores (R90). -/

namespace Sys2Proof

open Machine

/-! ### Decoding an encoded instruction -/

/-- Settles O2, format by format: the encoding's fields select the row of the instruction it was made from, and each operand
is read back from its own field. -/
theorem decodeEncodeAgree : Obligations.DecodeEncodeAgree := by
  intro i hwf
  cases i with
  | br mask off9 => rw [encode, decode_br (encodeBrf_15_12 _ _)]; simp
  | addReg dr sr1 sr2 =>
    rw [encode, decode_addReg (encodeOpr_15_12 .add _ _ _) (encodeOpr_5_5 _ _ _ _)]; simp [regHi, regMid, regLo]
  | addImm dr sr1 imm5 =>
    rw [encode, decode_addImm (encodeOpi_15_12 .add _ _ _) (encodeOpi_5_5 _ _ _ _)]; simp [regHi, regMid]
  | andReg dr sr1 sr2 =>
    rw [encode, decode_andReg (encodeOpr_15_12 .and _ _ _) (encodeOpr_5_5 _ _ _ _)]; simp [regHi, regMid, regLo]
  | andImm dr sr1 imm5 =>
    rw [encode, decode_andImm (encodeOpi_15_12 .and _ _ _) (encodeOpi_5_5 _ _ _ _)]; simp [regHi, regMid]
  | not dr sr => rw [encode, decode_not (encodeNot_15_12 _ _)]; simp [regHi, regMid]
  | ld dr off9 => rw [encode, decode_ld (encodePcr_15_12 .ld _ _)]; simp [regHi]
  | st sr off9 => rw [encode, decode_st (encodePcr_15_12 .st _ _)]; simp [regHi]
  | ldi dr off9 => rw [encode, decode_ldi (encodePcr_15_12 .ldi _ _)]; simp [regHi]
  | sti sr off9 => rw [encode, decode_sti (encodePcr_15_12 .sti _ _)]; simp [regHi]
  | lea dr off9 => rw [encode, decode_lea (encodePcr_15_12 .lea _ _)]; simp [regHi]
  | ldr dr base off6 => rw [encode, decode_ldr (encodeBro_15_12 .ldr _ _ _)]; simp [regHi, regMid]
  | str sr base off6 => rw [encode, decode_str (encodeBro_15_12 .str _ _ _)]; simp [regHi, regMid]
  | jsr off11 => rw [encode, decode_jsr (encodeJsrf_15_12 _) (encodeJsrf_11_11 _)]; simp
  | jsrr base => rw [encode, decode_jsrr (encodeJsrrf_15_12 _) (encodeJsrrf_11_11 _)]; simp [regMid]
  | jmp base => rw [encode, decode_jmp (encodeJmpf_15_12 _)]; simp [regMid]
  | rti low12 => rw [encode, decode_rti (encodeNone_15_12 .rti _)]; simp
  | res low12 => rw [encode, decode_res (encodeNone_15_12 .res _)]; simp
  | trap ign4 vect8 =>
    have hvec : definedVector (bits (encodeTrapf ign4 vect8) 7 0) = false := by simpa [Instr.wf] using hwf
    rw [encode, decode_trap (encodeTrapf_15_12 _ _) hvec]; simp
  | getc => exact decode_getc (encodeTrapf_15_12 _ _) (encodeTrapf_7_0 _ _)
  | out => exact decode_out (encodeTrapf_15_12 _ _) (encodeTrapf_7_0 _ _)
  | puts => exact decode_puts (encodeTrapf_15_12 _ _) (encodeTrapf_7_0 _ _)
  | inChar => exact decode_inChar (encodeTrapf_15_12 _ _) (encodeTrapf_7_0 _ _)
  | putsp => exact decode_putsp (encodeTrapf_15_12 _ _) (encodeTrapf_7_0 _ _)
  | halt => exact decode_halt (encodeTrapf_15_12 _ _) (encodeTrapf_7_0 _ _)

/-- Settles O1, each word by running the decoder on it. -/
theorem sampleWordsDecode : Obligations.SampleWordsDecode := by
  unfold Obligations.SampleWordsDecode
  decide

/-! ### The opcode table -/

/-- The generic TRAP row is the only one with a check, and the decoder reaches it only for a vector without a routine
(R89). -/
theorem Selects.wf {w : Word} {i : Instr} (h : Selects w i) : i.wf = true := by
  cases h with
  | trap _ hvec => simp [Instr.wf, hvec]
  | _ => rfl

/-- A word matches the row of the opcode table its selecting bits choose (R85, R88). -/
theorem Selects.and_mask {w : Word} {i : Instr} (h : Selects w i) : w &&& i.row.mask = i.row.value := by
  cases h with
  | addReg hop hbit | addImm hop hbit | andReg hop hbit | andImm hop hbit =>
    exact (and_F020 w).trans (by rw [hop, hbit]; rfl)
  | jsr hop hbit | jsrr hop hbit => exact (and_F800 w).trans (by rw [hop, hbit]; rfl)
  | getc hop hvec | out hop hvec | puts hop hvec | inChar hop hvec | putsp hop hvec | halt hop hvec =>
    exact (and_F0FF w).trans (by rw [hop, hvec]; rfl)
  | br hop | ld hop | st hop | ldr hop | str hop | rti hop | not hop | ldi hop | sti hop | jmp hop | res hop | lea hop
  | trap hop _ => exact (and_F000 w).trans (by rw [hop]; rfl)

/-- Settles O3: the decoder's answer is the row the word selects. -/
theorem decodedWordMatchesItsRow : Obligations.DecodedWordMatchesItsRow :=
  fun w => ⟨(decode_selects w).wf, (decode_selects w).and_mask⟩

/-! ### Ignored bits -/

/-- Two words agree on the field `word[hi:lo]`, written as the pair of its ends (R9). -/
def AgreeOn (v w : Word) (field : Nat × Nat) : Prop :=
  ∀ k, field.2 ≤ k → k ≤ field.1 → v.getLsbD k = w.getLsbD k

/-- Agreeing on a field is having the same value there (R113). -/
theorem agreeOn_iff {v w : Word} {hi lo : Nat} (h : lo ≤ hi ∧ hi ≤ 15) :
    AgreeOn v w (hi, lo) ↔ bits v hi lo h = bits w hi lo h := by
  constructor
  · intro hagree
    apply BitVec.eq_of_getLsbD_eq
    intro i hi
    rw [getLsbD_bits, getLsbD_bits, hagree (lo + i) (by omega) (by simp only; omega)]
  · intro heq k hlo hhi
    have hbit := congrArg (BitVec.getLsbD · (k - lo)) heq
    simp only [getLsbD_bits, Nat.add_sub_cancel' hlo] at hbit hhi
    simpa [show k - lo < hi - lo + 1 by omega] using hbit

/-- Where a list of fields covers exactly the bits that a mask leaves clear, two words agree up to the mask just if they
agree on those fields. -/
theorem or_eq_or_iff {v w m : Word} {fields : List (Nat × Nat)}
    (hcover : ∀ k : Fin 16, m.getLsbD k = false ↔ ∃ f ∈ fields, f.2 ≤ k.val ∧ k.val ≤ f.1) :
    v ||| m = w ||| m ↔ ∀ f ∈ fields, AgreeOn v w f := by
  constructor
  · intro heq f hf k hlo hhi
    by_cases hk : k < 16
    · have hclear := (hcover ⟨k, hk⟩).mpr ⟨f, hf, hlo, hhi⟩
      simpa [hclear] using congrArg (BitVec.getLsbD · k) heq
    · rw [BitVec.getLsbD_of_ge v k (by omega), BitVec.getLsbD_of_ge w k (by omega)]
  · intro hagree
    apply BitVec.eq_of_getLsbD_eq
    intro k hk
    cases hm : m.getLsbD k with
    | true => simp [hm]
    | false =>
      obtain ⟨f, hf, hlo, hhi⟩ := (hcover ⟨k, hk⟩).mp hm
      simp [hagree f hf k hlo hhi]

/-- The fields of an instruction's format that are not ignored (R81, R90). -/
def Instr.fields : Instr → List (Nat × Nat)
  | .br _ _ | .ld _ _ | .st _ _ | .ldi _ _ | .sti _ _ | .lea _ _ => [(15, 12), (11, 9), (8, 0)]
  | .addReg _ _ _ | .andReg _ _ _ => [(15, 12), (11, 9), (8, 6), (5, 5), (2, 0)]
  | .addImm _ _ _ | .andImm _ _ _ => [(15, 12), (11, 9), (8, 6), (5, 5), (4, 0)]
  | .ldr _ _ _ | .str _ _ _ => [(15, 12), (11, 9), (8, 6), (5, 0)]
  | .jsr _ => [(15, 12), (11, 11), (10, 0)]
  | .jsrr _ => [(15, 12), (11, 11), (8, 6)]
  | .not _ _ => [(15, 12), (11, 9), (8, 6)]
  | .jmp _ => [(15, 12), (8, 6)]
  | .rti _ | .res _ => [(15, 12)]
  | .trap _ _ | .getc | .out | .puts | .inChar | .putsp | .halt => [(15, 12), (7, 0)]

/-- The bits of an instruction's format that no field covers (R90). -/
def Instr.ignored : Instr → Word
  | .addReg _ _ _ | .andReg _ _ _ => 0x0018
  | .not _ _ => 0x003F
  | .jmp _ => 0x0E3F
  | .jsrr _ => 0x063F
  | .trap _ _ | .getc | .out | .puts | .inChar | .putsp | .halt => 0x0F00
  | .rti _ | .res _ => 0x0FFF
  | .br _ _ | .addImm _ _ _ | .andImm _ _ _ | .jsr _ | .ld _ _ | .st _ _ | .ldr _ _ _ | .str _ _ _ | .ldi _ _
  | .sti _ _ | .lea _ _ => 0

/-- The fields and the ignored bits of a format share the word between them. -/
theorem Instr.fields_cover (i : Instr) (k : Fin 16) :
    i.ignored.getLsbD k = false ↔ ∃ f ∈ i.fields, f.2 ≤ k.val ∧ k.val ≤ f.1 := by
  revert k
  cases i <;> simp only [Instr.ignored, Instr.fields] <;> decide

/-- The ignored bits of a word are those of the format it selects. -/
theorem Selects.ignoredBits_eq {w : Word} {i : Instr} (h : Selects w i) : ignoredBits w = i.ignored := by
  cases h <;> simp [ignoredBits, Opcode.ofBits, Instr.ignored, *]

/-- Two words differ in ignored bits only just if they agree on every field (R90). -/
theorem Selects.or_ignoredBits_iff {w : Word} {i : Instr} (h : Selects w i) (v : Word) :
    v ||| ignoredBits w = w ||| ignoredBits w ↔ ∀ f ∈ i.fields, AgreeOn v w f := by
  rw [h.ignoredBits_eq]
  exact or_eq_or_iff i.fields_cover

/-- Encoding what a word selects puts every field back where it came from. -/
theorem Selects.encode_agreeOn {w : Word} {i : Instr} (h : Selects w i) : ∀ f ∈ i.fields, AgreeOn (encode i) w f := by
  cases h <;> simp [Instr.fields, agreeOn_iff, encode, regHi, regMid, regLo, Opcode.toBits, *]

/-- A word that agrees with another on every field of its row, and the row is not one that faults, decodes alike. -/
theorem Selects.decode_eq_of_agreeOn {w v : Word} {i : Instr} (h : Selects w i) (hw : wordFaults w = false)
    (hagree : ∀ f ∈ i.fields, AgreeOn v w f) : decode v = i := by
  cases h with
  | rti hop | res hop => simp [wordFaults, hop] at hw
  | trap hop hvec => simp [wordFaults, hop, hvec] at hw
  | _ =>
    simp [Instr.fields, agreeOn_iff] at hagree
    simp [decode, Opcode.ofBits, decodeTrap, regHi, regMid, regLo, *]

/-- A word that agrees with another up to that one's ignored bits has the same opcode: no format ignores it (R81). -/
theorem opcode_eq_of_or_eq {w v : Word} (h : v ||| ignoredBits w = w ||| ignoredBits w) :
    bits v 15 12 = bits w 15 12 := by
  have hfield : ∀ i : Instr, (15, 12) ∈ i.fields := fun i => by cases i <;> simp [Instr.fields]
  exact (agreeOn_iff _).mp (((decode_selects w).or_ignoredBits_iff v).mp h _ (hfield _))

/-- The words that fault (R91). -/
theorem wordFaults_iff (w : Word) : wordFaults w = true ↔
    bits w 15 12 = 13 ∨ bits w 15 12 = 8 ∨ bits w 15 12 = 15 ∧ definedVector (bits w 7 0) = false := by
  simp [wordFaults, or_assoc]

end Sys2Proof

namespace Sys2Proof.Machine

/-! A word that faults is rebuilt for the record from its opcode and what its row keeps of it (R35, R91). -/

theorem exec_decode_rti {w : Word} (h : bits w 15 12 = 8) (s : State) :
    exec (decode w) s = .next (raiseFault .unsupportedRTI w s) := by
  rw [decode_rti h, exec_rti, encodeNone_of_bits h]

theorem exec_decode_res {w : Word} (h : bits w 15 12 = 13) (s : State) :
    exec (decode w) s = .next (raiseFault .illegalOpcode w s) := by
  rw [decode_res h, exec_res, encodeNone_of_bits h]

theorem exec_decode_trap {w : Word} (h : bits w 15 12 = 15) (h' : definedVector (bits w 7 0) = false) (s : State) :
    exec (decode w) s = .next (raiseFault .unknownTrapVector w s) := by
  rw [decode_trap h h', exec_trap_undefined h', encodeTrapf_of_bits h]

/-- Two words with the same opcode that raise the same fault differ in the record's `ir` alone (R35). -/
theorem raiseFault_congr_opcode {w v : Word} (h : bits v 15 12 = bits w 15 12) (cause : FaultCause) (s : State) :
    ∃ r : FaultRecord, raiseFault cause w s = setRun s (.faulted r) ∧
      raiseFault cause v s = setRun s (.faulted { r with ir := v }) :=
  ⟨⟨cause, bits w 15 12, s.pc - 1, w⟩, rfl, by rw [raiseFault, h]⟩

/-- Settles O4: a format's fields are all that its instruction keeps, and a word that faults keeps the rest for its record. -/
theorem onlyIgnoredBitsAreIgnored : Obligations.OnlyIgnoredBitsAreIgnored := by
  refine ⟨fun w => ?_, fun w v heq hw => ?_, fun w v s heq hw => ?_⟩
  · exact ((decode_selects w).or_ignoredBits_iff _).mpr (decode_selects w).encode_agreeOn
  · exact (decode_selects w).decode_eq_of_agreeOn hw (((decode_selects w).or_ignoredBits_iff v).mp heq.symm)
  · have hop := opcode_eq_of_or_eq heq.symm
    obtain hw' | hw' | ⟨hw', hvec⟩ := (wordFaults_iff w).mp hw
    · simp only [exec_decode_res hw', exec_decode_res (hop.trans hw'), Host.Outcome.next.injEq]
      exact raiseFault_congr_opcode hop _ s
    · simp only [exec_decode_rti hw', exec_decode_rti (hop.trans hw'), Host.Outcome.next.injEq]
      exact raiseFault_congr_opcode hop _ s
    · have hagree := ((decode_selects w).or_ignoredBits_iff v).mp heq.symm
      rw [decode_trap hw' hvec] at hagree
      have hvec' : bits v 7 0 = bits w 7 0 := (agreeOn_iff _).mp (hagree (7, 0) (by simp [Instr.fields]))
      simp only [exec_decode_trap hw' hvec, exec_decode_trap (hop.trans hw') (hvec' ▸ hvec), Host.Outcome.next.injEq]
      exact raiseFault_congr_opcode hop _ s

end Sys2Proof.Machine
end

section
/-! What a cycle can end in, and the invariant every cycle keeps (spec/10_state.md R27 to R35; spec/40_cycle_and_units.md
R110, R111; spec/60_exceptions.md R200, R201). -/

namespace Sys2Proof

open Machine

/-- The three rows whose run state is Faulted are those of the words that fault (R91). -/
theorem Selects.runAfter_faulted_iff {w : Word} {i : Instr} (h : Selects w i) {s : State} (hrun : s.run = .running) :
    (∃ r, runAfter i s = .faulted r) ↔ wordFaults w = true := by
  cases h with
  | trap hop hvec => simp [runAfter, wordFaults, hop, hvec]
  | _ => simp [runAfter, wordFaults, definedVector, *]

/-- The one row whose run state is Halted is that of TRAP x25 (R183). -/
theorem Selects.runAfter_halted_iff {w : Word} {i : Instr} (h : Selects w i) {s : State} (hrun : s.run = .running) :
    runAfter i s = .halted ↔ bits w 15 12 = 15 ∧ bits w 7 0 = 0x25 := by
  cases h with
  | trap hop hvec =>
    have hne : bits w 7 0 ≠ 0x25 := fun heq => by rw [heq] at hvec; exact absurd hvec (by decide)
    exact iff_of_false (by simp [runAfter]) fun h => hne h.2
  | _ => simp [runAfter, *]

end Sys2Proof

namespace Sys2Proof.Machine

/-- The run state after a well-formed instruction is the one its row gives. -/
theorem run_of_exec {i : Instr} {s t : State} (hwf : i.wf = true) (h : exec i s = .next t) : t.run = runAfter i s := by
  cases effect_of_exec hwf h with
  | defines _ _ row | stores _ _ row | jumps _ row | calls _ row | writes _ row | receives _ _ _ _ row | stops _ row =>
    exact (congrArg Touches.run row).symm

/-- Settles O11: the run state after the cycle is the one in the row of the word fetched. -/
theorem terminalStatesExactly : Obligations.TerminalStatesExactly := by
  intro s t hstep
  obtain ⟨hrun, hexec⟩ := step_eq_next hstep
  have hsel := decode_selects (loadWord s s.pc)
  rw [run_of_exec hsel.wf hexec]
  exact ⟨hsel.runAfter_faulted_iff hrun, hsel.runAfter_halted_iff hrun⟩

/-- Settles O10: of the shapes of effect, one waits, and one scans for ever. -/
theorem nothingElseStopsACycle : Obligations.NothingElseStopsACycle := by
  intro s hrun
  have hsel := decode_selects (loadWord s s.pc)
  have heffect := exec_effect hsel.wf (advancePc s)
  rw [step_of_running hrun]
  generalize exec (decode (loadWord s s.pc)) (advancePc s) = outcome at heffect
  cases heffect with
  | defines | stores | jumps | calls | writes | receives | stops => exact .inl ⟨_, rfl⟩
  | waits bs reads blocked =>
    obtain hdec | hdec := reads
    · rw [hdec] at hsel
      cases hsel with
      | getc hop hvec => exact .inr (.inl ⟨_, rfl, blocked, hop, .inl hvec⟩)
    · rw [hdec] at hsel
      cases hsel with
      | inChar hop hvec => exact .inr (.inl ⟨_, rfl, blocked, hop, .inr hvec⟩)
  | scans scan endless =>
    obtain hdec | hdec := scan
    · rw [hdec] at hsel
      cases hsel with
      | puts hop hvec => exact .inr (.inr ⟨rfl, endless, hop, .inl hvec⟩)
    · rw [hdec] at hsel
      cases hsel with
      | putsp hop hvec => exact .inr (.inr ⟨rfl, endless, hop, .inr hvec⟩)

/-! ### The invariant -/

/-- A machine that is not Faulted has no record to fit. -/
theorem recordFits_of_running {s : State} (h : s.run = .running) : recordFits s := by
  simp [recordFits, h]

/-- A record made of the word fetched and its address fits the machine, whose PC has advanced past it (R35, R201). -/
theorem recordFits_of_fetched {s : State} {w : Word} {cause : FaultCause} (hw : loadWord s s.pc = w)
    (hop : bits w 15 12 = faultOpcode cause)
    (hvec : cause = .unknownTrapVector → definedVector (bits w 7 0) = false) :
    recordFits (setRun (advancePc s) (.faulted ⟨cause, bits w 15 12, (advancePc s).pc - 1, w⟩)) := by
  have haddr : (advancePc s).pc - 1 = s.pc := BitVec.add_sub_cancel s.pc 1
  rw [haddr]
  exact ⟨rfl, hw, rfl, hop, hvec⟩

/-- The run state a cycle leaves, where it is a fault's, holds a record that fits (R35, R201). -/
theorem recordFits_runAfter {s : State} (hrun : s.run = .running) :
    recordFits (setRun (advancePc s) (runAfter (decode (loadWord s s.pc)) (advancePc s))) := by
  have hsel := decode_selects (loadWord s s.pc)
  generalize hw : loadWord s s.pc = w at hsel ⊢
  generalize decode w = i at hsel ⊢
  cases hsel with
  | rti hop =>
    have hir : encode (.rti (bits w 11 0)) = w := encodeNone_of_bits hop
    simp only [runAfter, hir]
    exact recordFits_of_fetched hw hop (by simp)
  | res hop =>
    have hir : encode (.res (bits w 11 0)) = w := encodeNone_of_bits hop
    simp only [runAfter, hir]
    exact recordFits_of_fetched hw hop (by simp)
  | trap hop hvec =>
    have hir : encode (.trap (bits w 11 8) (bits w 7 0)) = w := encodeTrapf_of_bits hop
    simp only [runAfter, hir]
    exact recordFits_of_fetched hw hop fun _ => hvec
  | _ => simp [recordFits, runAfter, hrun]

/-- Settles O53, shape by shape: only a store writes memory, only a defining instruction writes PSR, and only a fault makes
a record. -/
theorem stepKeepsTheInvariant : Obligations.StepKeepsTheInvariant := by
  rintro s t ⟨hmem, hflags, hunnamed, -⟩ hstep
  obtain ⟨hrun, hexec⟩ := step_eq_next hstep
  have hrecord := recordFits_runAfter hrun
  cases effect_of_exec (decode_selects (loadWord s s.pc)).wf hexec with
  | defines dr v =>
    refine ⟨hmem, ?_, (bits_withCc_upper s.psr (ccOf v)).trans hunnamed, recordFits_of_running hrun⟩
    rw [condOf_defineReg]
    exact oneHot_ccOf v
  | stores a v => exact ⟨memWrite_wf hmem a v, hflags, hunnamed, recordFits_of_running hrun⟩
  | jumps | calls | writes | receives => exact ⟨hmem, hflags, hunnamed, recordFits_of_running hrun⟩
  | stops run' row =>
    have hrow : runAfter _ (advancePc s) = run' := congrArg Touches.run row
    exact ⟨hmem, hflags, hunnamed, hrow ▸ hrecord⟩

/-! ### Machines that meet it at the start -/

/-- A machine just created over canonical memory meets the invariant (R40). -/
theorem created_inv (p : Params) (origin : Word) {m : Mem} (hm : m.wf = true) : (State.created p origin m).Inv where
  memory := hm
  flags := .inr (.inl (show bits resetPsr 2 0 = 0b010 by decide))
  unnamed := show bits resetPsr 15 3 = 0 by decide
  record := trivial

/-- Loading keeps memory canonical (R232). -/
theorem writeImage_wf {image : List Word} {m : Mem} (hm : m.wf = true) (a : Word) : (writeImage m a image).wf = true := by
  induction image generalizing m a with
  | nil => exact hm
  | cons v rest ih => exact ih (memWrite_wf hm a v) (a + 1)

/-- Settles O54: the empty memory is canonical. -/
theorem resetMeetsTheInvariant : Obligations.ResetMeetsTheInvariant := created_inv _ _ rfl

/-- Settles O58: the memory the loader fills was canonical when it was empty. -/
theorem loadedMachinesMeetTheInvariant : Obligations.LoadedMachinesMeetTheInvariant := by
  intro p origin image s hload
  unfold loadImage at hload
  split at hload
  · cases hload
    exact ⟨created_inv p origin (writeImage_wf rfl origin), rfl⟩
  · cases hload

end Sys2Proof.Machine
end

section
/-! Privilege: no operation reads PSR bits 15:3 and none writes them, so every operation commutes with a change of those
bits (spec/10_state.md R27, R28; spec/60_exceptions.md R212). -/

namespace Sys2Proof.Machine

section Change

variable (s : State) (u : BitVec 13)

/-- The flags are not among the bits changed. -/
@[simp] theorem condOf_withUpperPsr : condOf (withUpperPsr s u) = condOf s := by
  show bits (u ++ condOf s) 2 0 = condOf s
  apply BitVec.eq_of_getLsbD_eq
  intro i hi
  simp only [getLsbD_bits, BitVec.getLsbD_append]
  simp [hi]

/-- The bits changed are all those above the flags. -/
theorem bits_append_upper (c : BitVec 3) : bits (u ++ c) 15 3 = u := by
  apply BitVec.eq_of_getLsbD_eq
  intro i hi
  simp only [getLsbD_bits, BitVec.getLsbD_append]
  simp [hi]

/-- A defining instruction's last two steps commute with the change: the flags they write do not depend on it (R116). -/
theorem defineReg_withUpperPsr (dr : Reg) (v : Word) :
    defineReg (withUpperPsr s u) dr v = withUpperPsr (defineReg s dr v) u := by
  have hpsr : withCc (u ++ condOf s) (ccOf v) = u ++ condOf (defineReg s dr v) := by
    rw [withCc, bits_append_upper, condOf_defineReg]
  exact congrArg (setPsr (setReg s dr v)) hpsr

/-- The same change made in every state an outcome holds. -/
def outcomeWithUpperPsr (u : BitVec 13) : Host.Outcome State Fault Refusal → Host.Outcome State Fault Refusal
  | .next t => .next (withUpperPsr t u)
  | .fault (.awaitingInput w) => .fault (.awaitingInput (withUpperPsr w u))
  | .fault .halted => .fault .halted
  | .fault (.faulted r) => .fault (.faulted r)
  | .fault .endlessScan => .fault .endlessScan
  | .refused r => .refused r

/-- No instruction sees the change (R212). -/
theorem exec_withUpperPsr {i : Instr} (hwf : i.wf = true) :
    exec i (withUpperPsr s u) = outcomeWithUpperPsr u (exec i s) := by
  cases i with
  | addReg dr _ _ | addImm dr _ _ | andReg dr _ _ | andImm dr _ _ | not dr _ | ld dr _ | ldi dr _ | ldr dr _ _
  | lea dr _ => exact congrArg Host.Outcome.next (defineReg_withUpperPsr s u dr _)
  | st _ _ | sti _ _ | str _ _ _ | jmp _ | jsr _ | rti _ | res _ | out | halt => rfl
  | br mask off9 => rw [exec_br, exec_br, condOf_withUpperPsr]; rfl
  | jsrr base => rw [exec_jsrr, exec_jsrr]; rfl
  | trap ign4 vect8 =>
    have hvec : definedVector vect8 = false := by simpa [Instr.wf] using hwf
    rw [exec_trap_undefined hvec, exec_trap_undefined hvec]
    rfl
  | getc =>
    cases htake : takeByte s.input with
    | some taken =>
      rw [exec_getc_of_takeByte (s := s) htake, exec_getc_of_takeByte (s := withUpperPsr s u) htake]
      rfl
    | none => rw [exec_getc_blocked (s := s) htake, exec_getc_blocked (s := withUpperPsr s u) htake]; rfl
  | inChar =>
    cases htake : takeByte s.input with
    | some taken =>
      rw [exec_inChar_of_takeByte (s := s) htake, exec_inChar_of_takeByte (s := withUpperPsr s u) htake]
      rfl
    | none => rw [exec_inChar_blocked (s := s) htake, exec_inChar_blocked (s := withUpperPsr s u) htake]; rfl
  | puts =>
    cases hscan : putsScan scanBound s.mem (getReg s .r0) with
    | some bs => rw [exec_puts_of_scan (s := s) hscan, exec_puts_of_scan (s := withUpperPsr s u) hscan]; rfl
    | none => rw [exec_puts_endless (s := s) hscan, exec_puts_endless (s := withUpperPsr s u) hscan]; rfl
  | putsp =>
    cases hscan : putspScan scanBound s.mem (getReg s .r0) with
    | some bs => rw [exec_putsp_of_scan (s := s) hscan, exec_putsp_of_scan (s := withUpperPsr s u) hscan]; rfl
    | none => rw [exec_putsp_endless (s := s) hscan, exec_putsp_endless (s := withUpperPsr s u) hscan]; rfl

/-- No cycle sees the change: the word fetched, the increment and the run state do not depend on it (R212). -/
theorem step_withUpperPsr : step (withUpperPsr s u) = outcomeWithUpperPsr u (step s) := by
  cases hrun : s.run with
  | running =>
    have hrun' : (withUpperPsr s u).run = .running := hrun
    rw [step_of_running hrun, step_of_running hrun']
    exact exec_withUpperPsr (advancePc s) u (decode_selects (loadWord s s.pc)).wf
  | halted => simp [step, hrun, show (withUpperPsr s u).run = .halted from hrun, outcomeWithUpperPsr]
  | faulted r => simp [step, hrun, show (withUpperPsr s u).run = .faulted r from hrun, outcomeWithUpperPsr]

end Change

/-- Settles O55: a cycle commutes with a change of PSR bits 15:3. -/
theorem upperPsrBitsAreNeverSeen : Obligations.UpperPsrBitsAreNeverSeen := by
  intro s u
  rw [step_withUpperPsr]
  rcases step s with t | (_ | _ | w | _) | r <;> rfl

end Sys2Proof.Machine
end

section
/-! ADD, AND, NOT, the loads, LEA and the stores on every operand; NOT from the word at PC; and a stored word as the next
instruction (spec/20_memory.md R66; spec/40_cycle_and_units.md R118; spec/41_alu.md; spec/42_data_movement.md). -/

namespace Sys2Proof.Machine

/-- Settles O15: each of the five ends by defining DR. -/
theorem aluInstructionsComplete : Obligations.AluInstructionsComplete := fun s dr sr1 sr2 imm5 =>
  ⟨⟨_, exec_addReg dr sr1 sr2 s, defineReg_defines s dr _⟩, ⟨_, exec_addImm dr sr1 imm5 s, defineReg_defines s dr _⟩,
    ⟨_, exec_andReg dr sr1 sr2 s, defineReg_defines s dr _⟩, ⟨_, exec_andImm dr sr1 imm5 s, defineReg_defines s dr _⟩,
    ⟨_, exec_not dr sr1 s, defineReg_defines s dr _⟩⟩

/-- Settles O13: DR takes the sum of words, and the whole effect of defining it leaves no trace of a carry. -/
theorem additionWraps : Obligations.AdditionWraps := by
  intro s dr sr1 sr2
  have heffect := defineReg_defines s dr (getReg s sr1 + getReg s sr2)
  refine ⟨_, exec_addReg dr sr1 sr2 s, ?_, ?_, heffect.psrRest, heffect.rest.run⟩
  · rw [heffect.result, BitVec.toNat_add]
  · rw [BitVec.ofNat_add, BitVec.ofNat_toNat, BitVec.ofNat_toNat, BitVec.setWidth_eq, BitVec.setWidth_eq]
    exact heffect.flags

/-- Settles O20: opcode 9 decodes to NOT, and the complement of a word is what it lacks of 0xFFFF. -/
theorem notRule : Obligations.NotRule := by
  rintro s _ hrun rfl hop
  have hcompl (v : Word) : 0xFFFF - v = ~~~v := BitVec.allOnes_sub_eq_not v
  rw [hcompl]
  exact step_defines hrun (decode_not hop) (exec_not _ _ (advancePc s))

/-- Settles O21: each of the four ends by defining DR. -/
theorem loadsComplete : Obligations.LoadsComplete := fun s dr base off9 off6 =>
  ⟨⟨_, exec_ld dr off9 s, defineReg_defines s dr _⟩, ⟨_, exec_ldi dr off9 s, defineReg_defines s dr _⟩,
    ⟨_, exec_ldr dr base off6 s, defineReg_defines s dr _⟩, ⟨_, exec_lea dr off9 s, defineReg_defines s dr _⟩⟩

/-- Settles O26: each of the three is a store in canonical memory. -/
theorem storesComplete : Obligations.StoresComplete := fun s sr base off9 off6 hmem =>
  ⟨⟨_, exec_st sr off9 s, storeWord_stores hmem _ _⟩, ⟨_, exec_sti sr off9 s, storeWord_stores hmem _ _⟩,
    ⟨_, exec_str sr base off6 s, storeWord_stores hmem _ _⟩⟩

/-- The three stores write the tabled register at the tabled address (R22, R63). -/
theorem exec_of_storeSource {i : Instr} {s : State} {sr : Reg} {a : Word} (hsr : storeSource i = some sr)
    (ha : storeAddr i s = some a) : exec i s = .next (storeWord s a (getReg s sr)) := by
  cases i with
  | st _ _ | sti _ _ | str _ _ _ => cases hsr; cases ha; rfl
  | _ => cases hsr

/-- Settles O8: the word read back at PC is the one stored there. -/
theorem storedWordIsFetchedNext : Obligations.StoredWordIsFetchedNext := by
  intro i s t sr hrun hmem hsr ha hexec
  rw [exec_of_storeSource hsr ha] at hexec
  cases hexec
  have hfetch : loadWord (storeWord s s.pc (getReg s sr)) s.pc = getReg s sr := loadWord_storeWord_self hmem _ _
  rw [step_of_running (s := storeWord s s.pc (getReg s sr)) hrun, storeWord_pc, hfetch]
  rfl

end Sys2Proof.Machine
end

section
/-! BR and JSRR from the word at PC, the four control transfers on every operand, and a branch after a defining result
(spec/43_control.md R160 to R165). -/

namespace Sys2Proof.Machine

/-- A branch is taken on any of three bits (R160). -/
theorem and_ne_zero_iff (mask code : BitVec 3) : mask &&& code ≠ 0 ↔
    (mask.getLsbD 2 = true ∧ code.getLsbD 2 = true) ∨ (mask.getLsbD 1 = true ∧ code.getLsbD 1 = true) ∨
      (mask.getLsbD 0 = true ∧ code.getLsbD 0 = true) := by
  revert mask code
  decide

/-- Settles O30: three of the four write PC and the link alone, and BR's PC is the target or the one it has. -/
theorem controlTransfersComplete : Obligations.ControlTransfersComplete := fun s mask off9 off11 base =>
  ⟨⟨_, exec_br mask off9 s, setPc_jumps s _⟩, ⟨_, exec_jmp base s, setPc_jumps s _⟩,
    ⟨_, exec_jsr off11 s, setPc_linkR7_calls s _⟩, ⟨_, exec_jsrr base s, setPc_linkR7_calls s _⟩⟩

/-- The mask of a BR and the flags it meets, bit by bit of the two words that hold them (R26, R160). -/
theorem mask_meets_flags_iff (ir : Word) (s : State) : bits ir 11 9 &&& condOf s ≠ 0 ↔
    (bits ir 11 11 = 1 ∧ bits s.psr 2 2 = 1) ∨ (bits ir 10 10 = 1 ∧ bits s.psr 1 1 = 1) ∨
      (bits ir 9 9 = 1 ∧ bits s.psr 0 0 = 1) := by
  refine (and_ne_zero_iff _ _).trans ?_
  simp only [condOf, bits_self_eq_one_iff, getLsbD_bits]
  simp

/-- Settles O31: opcode 0 decodes to BR, whose mask meets the flags bit by bit. -/
theorem brRule : Obligations.BrRule := by
  rintro s _ hrun rfl hop
  refine step_jumps hrun (decode_br hop) ?_
  rw [exec_br]
  simp only [← mask_meets_flags_iff]
  rfl

/-- The bits of a result's code are its signed comparisons with zero (R115). -/
theorem ccOf_bits_iff (v : Word) : ((ccOf v).getLsbD 2 = true ↔ v.toInt < 0) ∧
    ((ccOf v).getLsbD 1 = true ↔ v.toInt = 0) ∧ ((ccOf v).getLsbD 0 = true ↔ 0 < v.toInt) := by
  have hzero : v = 0 ↔ v.toNat = 0 := by rw [← BitVec.toNat_inj]; rfl
  have hint : v.toInt = if v.toNat < 0x8000 then (v.toNat : Int) else v.toNat - 0x10000 := by
    rw [BitVec.toInt_eq_toNat_cond]
    split <;> split <;> omega
  have hlt := v.isLt
  rw [hint]
  obtain ⟨hneg, _, hcode⟩ | ⟨h0, _, hcode⟩ | ⟨hpos, h0, hcode⟩ := ccOf_cases v <;> rw [hcode]
  · rw [if_neg (by omega)]
    exact ⟨iff_of_true rfl (by omega), iff_of_false (by decide) (by omega), iff_of_false (by decide) (by omega)⟩
  · rw [hzero] at h0
    rw [if_pos (by omega)]
    exact ⟨iff_of_false (by decide) (by omega), iff_of_true rfl (by omega), iff_of_false (by decide) (by omega)⟩
  · rw [Ne, hzero] at h0
    rw [if_pos hpos]
    exact ⟨iff_of_false (by decide) (by omega), iff_of_false (by decide) (by omega), iff_of_true rfl (by omega)⟩

/-- BR after a defining result, by the signed value of that result (R161). -/
theorem taken_after_result_iff (mask : BitVec 3) (v : Word) : mask &&& ccOf v ≠ 0 ↔
    (mask.getLsbD 2 = true ∧ v.toInt < 0) ∨ (mask.getLsbD 1 = true ∧ v.toInt = 0) ∨
      (mask.getLsbD 0 = true ∧ 0 < v.toInt) := by
  obtain ⟨hn, hz, hp⟩ := ccOf_bits_iff v
  rw [and_ne_zero_iff, hn, hz, hp]

/-- Settles O32, mask by mask: the comparisons a mask names join to the one the rule gives. -/
theorem branchSeesTheLastResult : Obligations.BranchSeesTheLastResult := by
  intro s dr v mask off9
  refine ⟨_, exec_br mask off9 (defineReg s dr v), ?_⟩
  simp only [setPc_pc, condOf_defineReg, defineReg_pc, taken_after_result_iff]
  refine ⟨?_, ?_, ?_, ?_, ?_, ?_, ?_, ?_⟩ <;> rintro rfl
  · exact if_neg (by simp)
  · exact if_pos (by simp; omega)
  · exact if_congr (by simp) rfl rfl
  · exact if_congr (by simp) rfl rfl
  · exact if_congr (by simp; omega) rfl rfl
  · exact if_congr (by simp) rfl rfl
  · exact if_congr (by simp) rfl rfl
  · exact if_congr (by simp; omega) rfl rfl

/-- The target of JSRR, with R7 told from the other base registers by the field that names it (R82, R164). -/
theorem jsrr_target_eq (b : BitVec 3) (s : State) (first : Bool) (link : Word) :
    (if Reg.ofBits b = .r7 ∧ first = true then link else getReg s (Reg.ofBits b)) =
      if b = 7 then (if first = true then link else getReg s .r7) else getReg s (Reg.ofBits b) := by
  have hr7 : Reg.ofBits b = .r7 ↔ b = 7 := by
    revert b
    decide
  by_cases hb : b = 7
  · subst hb
    cases first <;> rfl
  · rw [if_neg hb, if_neg fun h => hb (hr7.mp h.1)]

/-- Settles O35: opcode 4 with bit 11 clear decodes to JSRR, whose link is taken from the advanced PC. -/
theorem jsrrRule : Obligations.JsrrRule := by
  rintro s _ hrun rfl hop hbit
  rw [← jsrr_target_eq]
  exact step_calls hrun (decode_jsrr hop hbit) (exec_jsrr _ (advancePc s))

end Sys2Proof.Machine
end

section
/-! The TRAP routines, RTI and the faulting instructions: on every operand, and from the word at PC (spec/44_trap.md R177 to
R184; spec/45_system.md R195). -/

namespace Sys2Proof.Machine

/-! ### The routines on every state -/

/-- GETC where a byte is there: it echoes nothing (R177). -/
theorem getc_receives {s : State} {c : Byte} {rest : InputStream} (h : takeByte s.input = some (c, rest)) :
    ∃ t, exec .getc s = .next t ∧ Receives s t s.pc c rest [] :=
  ⟨_, exec_getc_of_takeByte h, by simpa only [writeChars_nil] using receives s c rest []⟩

/-- IN where a byte is there: it writes the prompt and echoes the byte (R180). -/
theorem inChar_receives {s : State} {c : Byte} {rest : InputStream} (h : takeByte s.input = some (c, rest)) :
    ∃ t, exec .inChar s = .next t ∧ Receives s t s.pc c rest (s.params.inPrompt ++ [c]) :=
  ⟨_, exec_inChar_of_takeByte h, receives s c rest _⟩

/-- Settles O36: a word that ends the scan keeps it from going on for ever. -/
theorem trapRoutinesComplete : Obligations.TrapRoutinesComplete := by
  intro s
  refine ⟨fun c rest => getc_receives, ⟨_, exec_out s, writeChars_writes s _⟩, fun a ha => ?_,
    fun c rest => inChar_receives, fun a ha => ?_, ⟨_, exec_halt s, setRun_stops s _⟩⟩
  · cases hscan : putsScan scanBound s.mem (getReg s .r0) with
    | some bs => exact ⟨_, bs, exec_puts_of_scan hscan, writeChars_writes s bs⟩
    | none => exact absurd ha ((putsScan_endless_iff s _).mp hscan a)
  · cases hscan : putspScan scanBound s.mem (getReg s .r0) with
    | some bs => exact ⟨_, bs, exec_putsp_of_scan hscan, writeChars_writes s bs⟩
    | none => exact absurd ha ((putspScan_endless_iff s _).mp hscan a)

/-- Settles O45: each of the three takes its fault, with the opcode read back from the word encoded for its record. -/
theorem faultingInstructionsComplete : Obligations.FaultingInstructionsComplete := by
  intro s low12 ign4 vect8
  have hstops {cause : FaultCause} {op : BitVec 4} {ir : Word} (hop : bits ir 15 12 = op) :
      Stops s (raiseFault cause ir s) s.pc (.faulted ⟨cause, op, s.pc - 1, ir⟩) := hop ▸ raiseFault_stops cause ir s
  exact ⟨⟨_, exec_rti low12 s, hstops (encodeNone_15_12 .rti low12)⟩,
    ⟨_, exec_res low12 s, hstops (encodeNone_15_12 .res low12)⟩,
    fun hvec => ⟨_, exec_trap_undefined hvec s, hstops (encodeTrapf_15_12 ign4 vect8)⟩⟩

/-! ### From the word at PC -/

/-- Settles O46: opcode 8 decodes to RTI, whose ignored bits rebuild the word for the record. -/
theorem rtiRule : Obligations.RtiRule := by
  rintro s _ hrun rfl hop
  rw [← hop]
  exact step_faults hrun rfl (exec_decode_rti hop (advancePc s))

/-- Settles O42: opcode 15 with vector 0x25 decodes to HALT, which writes the run state alone. -/
theorem haltRule : Obligations.HaltRule := by
  rintro s _ hrun rfl hop hvec
  refine ⟨setRun (advancePc s) .halted, ?_, (setRun_stops (advancePc s) .halted).of_advance⟩
  rw [step_of_running hrun, decode_halt hop hvec, exec_halt]

/-- Settles O37: opcode 15 with vector 0x20 decodes to GETC, whose input is that of the state before the cycle. -/
theorem getcRule : Obligations.GetcRule := by
  rintro s _ hrun rfl hop hvec
  rw [step_of_running hrun, decode_getc hop hvec]
  constructor
  · intro c rest htake
    obtain ⟨t, hexec, heffect⟩ := getc_receives (s := advancePc s) htake
    exact ⟨t, hexec, heffect.of_advance⟩
  · exact fun hblocked => exec_getc_blocked (s := advancePc s) hblocked

/-- Settles O40: opcode 15 with vector 0x23 decodes to IN, whose prompt is written before it waits. -/
theorem inRule : Obligations.InRule := by
  rintro s _ hrun rfl hop hvec
  rw [step_of_running hrun, decode_inChar hop hvec]
  constructor
  · intro c rest htake
    obtain ⟨t, hexec, heffect⟩ := inChar_receives (s := advancePc s) htake
    exact ⟨t, hexec, heffect.of_advance⟩
  · exact fun hblocked => exec_inChar_blocked (s := advancePc s) hblocked

/-- Settles O39: opcode 15 with vector 0x22 decodes to PUTS, whose scan ends at the first zero word from R0 on. -/
theorem putsRule : Obligations.PutsRule := by
  rintro s _ hrun rfl hop hvec
  constructor
  · intro k hk hbefore hzero
    exact step_writes hrun (decode_puts hop hvec) (exec_puts_of_scan (putsScan_eq_some hk hbefore hzero))
  · intro hendless
    rw [step_of_running hrun, decode_puts hop hvec]
    exact exec_puts_endless ((putsScan_endless_iff (advancePc s) _).mpr hendless)

/-- Settles O41: opcode 15 with vector 0x24 decodes to PUTSP, whose scan ends at the first word from R0 on with a zero
byte. -/
theorem putspRule : Obligations.PutspRule := by
  rintro s _ hrun rfl hop hvec
  constructor
  · intro k hk hbefore hends
    exact step_writes hrun (decode_putsp hop hvec) (exec_putsp_of_scan (putspScan_eq_some hk hbefore hends))
  · intro hendless
    rw [step_of_running hrun, decode_putsp hop hvec]
    exact exec_putsp_endless ((putspScan_endless_iff (advancePc s) _).mpr hendless)

/-! ### Waiting for input -/

/-- A step that waits is that of a Running machine at GETC or IN whose environment supplies nothing (R38, R210). -/
theorem step_eq_awaitingInput {s w : State} (h : step s = .fault (.awaitingInput w)) :
    s.run = .running ∧ takeByte s.input = none ∧ w.pc = s.pc + 1 ∧
      (decode (loadWord s s.pc) = .getc ∨ decode (loadWord s s.pc) = .inChar) := by
  cases hrun : s.run with
  | running =>
    rw [step_of_running hrun] at h
    have heffect := h ▸ exec_effect (decode_selects (loadWord s s.pc)).wf (advancePc s)
    cases heffect with
    | waits bs reads blocked => exact ⟨rfl, blocked, rfl, reads⟩
  | halted => simp [step, hrun] at h
  | faulted r => simp [step, hrun] at h

/-- A byte supplied to a silent environment is the next one taken, and taking it leaves the stream as it was (R38). -/
theorem takeByte_supplyInput {s : State} (h : takeByte s.input = none) (b : Byte) :
    takeByte (supplyInput s b).input = some (b, s.input) := by
  obtain ⟨hready, -⟩ := (takeByte_eq_none s.input).mp h
  have hkept : ({ s.input with ready := [] } : InputStream) = s.input := by rw [← hready]
  simp [supplyInput, takeByte, hready, hkept]

/-- Settles O44: the repeated cycle fetches the same word, and takes the byte supplied. -/
theorem aSuppliedByteEndsTheWait : Obligations.ASuppliedByteEndsTheWait := by
  intro s w b hstep
  obtain ⟨hrun, hblocked, hpc, hdec⟩ := step_eq_awaitingInput hstep
  have htake : takeByte (advancePc (supplyInput s b)).input = some (b, s.input) := takeByte_supplyInput hblocked b
  have hstep' : step (supplyInput s b) = exec (decode (loadWord s s.pc)) (advancePc (supplyInput s b)) :=
    step_of_running (s := supplyInput s b) hrun
  rw [hstep', hpc]
  obtain hdec | hdec := hdec
  · rw [hdec, exec_getc_of_takeByte htake]
    exact ⟨_, rfl, getReg_setReg_self _ .r0 _, rfl, rfl⟩
  · rw [hdec, exec_inChar_of_takeByte htake]
    exact ⟨_, rfl, getReg_setReg_self _ .r0 _, rfl, rfl⟩

end Sys2Proof.Machine
end

section
/-! Canonical memories, the image file, and the cycle as its callers see it (spec/20_memory.md R51;
spec/40_cycle_and_units.md R110, R112; spec/70_reset_and_hazards.md R236 to R241). -/

namespace Sys2Proof.Machine

/-! ### Canonical memories -/

/-- A canonical list is canonical from its first address on, lists a word there that is not the default, and continues
above it. -/
theorem memWfFrom_cons_iff {lo a : Nat} {v : Word} {m : Mem} : memWfFrom lo ((a, v) :: m) = true ↔
    lo ≤ a ∧ a < 0x10000 ∧ v ≠ unlistedWord ∧ memWfFrom (a + 1) m = true := by
  simp [memWfFrom, and_assoc]

/-- The address of a listed word is no higher than the first address of a canonical list that reads the same there. -/
theorem first_le_of_read {lo a b : Nat} {v w : Word} {m : Mem} (hm : memWfFrom lo ((b, w) :: m) = true)
    (hread : memReadAt ((b, w) :: m) a = v) (hv : v ≠ unlistedWord) : b ≤ a := by
  obtain ⟨-, hb, hw, htail⟩ := memWfFrom_cons_iff.mp hm
  by_contra hlt
  exact hv (hread.symm.trans (memReadAt_below (memWfFrom_cons_iff.mpr ⟨Nat.le_refl b, hb, hw, htail⟩) (by omega)))

/-- Canonical lists that read alike are equal, from any lower bound on their addresses. -/
theorem eq_of_memReadAt_eq {lo lo' : Nat} {m n : Mem} (hm : memWfFrom lo m = true) (hn : memWfFrom lo' n = true)
    (hread : ∀ a, a < 0x10000 → memReadAt m a = memReadAt n a) : m = n := by
  induction m generalizing lo lo' n with
  | nil =>
    cases n with
    | nil => rfl
    | cons c n =>
      obtain ⟨-, hb, hw, -⟩ := memWfFrom_cons_iff.mp hn
      exact absurd (hread c.1 hb).symm (by simpa [memReadAt] using hw)
  | cons c m ih =>
    obtain ⟨a, v⟩ := c
    obtain ⟨-, ha, hv, hm'⟩ := memWfFrom_cons_iff.mp hm
    have hreada : memReadAt n a = v := by simpa [memReadAt] using (hread a ha).symm
    cases n with
    | nil => exact absurd hreada.symm hv
    | cons d n =>
      obtain ⟨b, w⟩ := d
      obtain ⟨-, hb, hw, hn'⟩ := memWfFrom_cons_iff.mp hn
      have hreadb : memReadAt ((a, v) :: m) b = w := by simpa [memReadAt] using hread b hb
      obtain rfl : a = b := Nat.le_antisymm (first_le_of_read hm hreadb hw) (first_le_of_read hn hreada hv)
      obtain rfl : w = v := by simpa [memReadAt] using hreada
      have htail : ∀ x, x < 0x10000 → memReadAt m x = memReadAt n x := by
        intro x hx
        by_cases hxa : x = a
        · rw [hxa, memReadAt_below hm' (Nat.lt_succ_self a), memReadAt_below hn' (Nat.lt_succ_self a)]
        · simpa [memReadAt, hxa] using hread x hx
      rw [ih hm' hn' htail]

/-- Settles O56: the two lists begin with the same cell, and so do their tails. -/
theorem canonicalMemoriesThatReadAlikeAreEqual : Obligations.CanonicalMemoriesThatReadAlikeAreEqual := by
  intro m n hm hn hread
  refine eq_of_memReadAt_eq hm hn fun a ha => ?_
  have hat := hread (BitVec.ofNat 16 a)
  rwa [memRead, memRead, BitVec.toNat_ofNat, Nat.mod_eq_of_lt ha] at hat

/-! ### The image file -/

/-- A word's value from its two bytes, the high one first (R55). -/
theorem toNat_wordOfBytes (high low : Byte) : (wordOfBytes high low).toNat = high.toNat * 256 + low.toNat := by
  rw [wordOfBytes, BitVec.toNat_append, Nat.shiftLeft_eq, Nat.mul_comm, ← Nat.two_pow_add_eq_or_of_lt low.isLt,
    Nat.mul_comm]

/-- A file with a whole header or a whole word begins with its two bytes (R236). -/
theorem exists_two_bytes {bytes : List Byte} (h : 2 ≤ bytes.length) :
    ∃ high low rest, bytes = high :: low :: rest := by
  obtain _ | ⟨high, _ | ⟨low, rest⟩⟩ := bytes
  · simp at h
  · simp at h
  · exact ⟨high, low, rest, rfl⟩

/-- An odd number of bytes leaves a half word over (R236). -/
theorem wordsOfBytes_odd {n : Nat} {bytes : List Byte} (h : bytes.length = 2 * n + 1) : wordsOfBytes bytes = none := by
  induction n generalizing bytes with
  | zero =>
    obtain ⟨b, rfl⟩ := List.length_eq_one_iff.mp h
    rfl
  | succ n ih =>
    obtain ⟨high, low, rest, rfl⟩ := exists_two_bytes (bytes := bytes) (by omega)
    rw [List.length_cons, List.length_cons] at h
    rw [wordsOfBytes, ih (by omega)]
    rfl

/-- An even number of bytes makes half as many words, each of two bytes, the high one first (R236). -/
theorem wordsOfBytes_even {n : Nat} {bytes : List Byte} (h : bytes.length = 2 * n) :
    ∃ image : List Word, wordsOfBytes bytes = some image ∧ image.length = n ∧
      ∀ k, k < n → (image.getD k 0).toNat = (bytes.getD (2 * k) 0).toNat * 256 + (bytes.getD (2 * k + 1) 0).toNat := by
  induction n generalizing bytes with
  | zero =>
    obtain rfl := List.length_eq_zero_iff.mp h
    exact ⟨[], rfl, rfl, fun k hk => absurd hk (Nat.not_lt_zero k)⟩
  | succ n ih =>
    obtain ⟨high, low, rest, rfl⟩ := exists_two_bytes (bytes := bytes) (by omega)
    rw [List.length_cons, List.length_cons] at h
    obtain ⟨image, hwords, hlen, hvalue⟩ := ih (bytes := rest) (by omega)
    refine ⟨wordOfBytes high low :: image, by rw [wordsOfBytes, hwords]; rfl, by simp [hlen], fun k hk => ?_⟩
    cases k with
    | zero => exact toNat_wordOfBytes high low
    | succ k => exact hvalue k (by omega)

/-- An image past LOAD_END is not loaded (R237). -/
theorem loadImage_tooLarge {p : Params} {origin : Word} {image : List Word}
    (h : p.loadEnd < origin.toNat + image.length) : loadImage p origin image = .error .tooLarge :=
  if_neg (Nat.not_le.mpr h)

/-- Settles O59: the header is the first two bytes, and the image is read from the rest two bytes at a time. -/
theorem imageFilesAndLoadErrors : Obligations.ImageFilesAndLoadErrors := by
  intro p file
  refine ⟨fun hshort => ?_, fun hlong hodd => ?_, fun n hlen => ?_⟩
  · obtain _ | ⟨high, _ | ⟨low, rest⟩⟩ := file
    · rfl
    · rfl
    · simp at hshort
  · obtain ⟨high, low, rest, rfl⟩ := exists_two_bytes hlong
    rw [List.length_cons, List.length_cons] at hodd
    have hrest : rest.length = 2 * (rest.length / 2) + 1 := by omega
    rw [loadFile, parseImage, wordsOfBytes_odd hrest]
  · obtain ⟨high, low, rest, rfl⟩ := exists_two_bytes (bytes := file) (by omega)
    rw [List.length_cons, List.length_cons] at hlen
    obtain ⟨image, hwords, rfl, hvalue⟩ := wordsOfBytes_even (n := n) (bytes := rest) (by omega)
    have hparse : parseImage (high :: low :: rest) = .ok (wordOfBytes high low, image) := by rw [parseImage, hwords]
    have hload : loadFile p (high :: low :: rest) = loadImage p (wordOfBytes high low) image := by rw [loadFile, hparse]
    exact ⟨_, image, hparse, rfl, toNat_wordOfBytes high low, hvalue, fun h => hload.trans (loadImage_tooLarge h),
      fun _ => hload⟩

/-! ### The cycle and the caller -/

/-- Settles O7: `exec` gets the state with PC advanced and nothing else changed. -/
theorem stepRunsDecodedInstruction : Obligations.StepRunsDecodedInstruction := by
  rintro s _ hrun rfl
  exact step_of_running hrun

/-! From a terminal run state no cycle executes (R34, R36). -/

theorem step_of_halted {s : State} (h : s.run = .halted) : step s = .fault .halted := by
  simp [step, h]

theorem step_of_faulted {s : State} {r : FaultRecord} (h : s.run = .faulted r) : step s = .fault (.faulted r) := by
  simp [step, h]

/-- Settles O9: the two terminal run states are the two other arms of `step`. -/
theorem stoppedMachineHasNoCycle : Obligations.StoppedMachineHasNoCycle :=
  fun _ => ⟨step_of_halted, fun _ => step_of_faulted⟩

/-- No cycle of the host's run leaves the state as it is. -/
theorem core_run_zero_eq_next_iff (s t : State) : Host.Core.run Sys2Proof.core 0 s = .next t ↔ s = t := by
  rw [core_run_zero]
  exact ⟨fun h => by injection h, fun h => by rw [h]⟩

/-- A bounded run stops exactly after that many cycles, with a Running machine (R239, R240). -/
theorem runFor_eq_stopped_iff (limit : Nat) (s t : State) :
    runFor limit s = .stopped t ↔ Host.Core.run Sys2Proof.core limit s = .next t ∧ t.run = .running := by
  induction limit generalizing s with
  | zero =>
    rw [core_run_zero_eq_next_iff]
    cases hrun : s.run with
    | running =>
      rw [runFor_zero hrun, CallerResult.stopped.injEq]
      exact ⟨fun heq => ⟨heq, heq ▸ hrun⟩, And.left⟩
    | halted =>
      rw [runFor_of_halted 0 hrun]
      exact iff_of_false nofun (by rintro ⟨rfl, h⟩; simp [hrun] at h)
    | faulted r =>
      rw [runFor_of_faulted 0 hrun]
      exact iff_of_false nofun (by rintro ⟨rfl, h⟩; simp [hrun] at h)
  | succ n ih =>
    rw [core_run_succ]
    cases hrun : s.run with
    | running =>
      rw [runFor_succ n hrun]
      cases step s with
      | next s' => exact ih s'
      | fault why => simp
      | refused why => simp
    | halted => simp [runFor_of_halted (n + 1) hrun, step_of_halted hrun]
    | faulted r => simp [runFor_of_faulted (n + 1) hrun, step_of_faulted hrun]

/-- A run that gives a terminal result gives the final state in that run state. -/
def CallerResult.Sound : CallerResult → Prop
  | .halted final => final.run = .halted
  | .faulted record final => final.run = .faulted record
  | .stopped _ | .pending _ | .refused _ => True

/-- A terminal result comes from a machine that is in that run state (R241). -/
theorem runFor_sound (limit : Nat) (s : State) : (runFor limit s).Sound := by
  induction limit generalizing s with
  | zero =>
    cases hrun : s.run with
    | running => rw [runFor_zero hrun]; trivial
    | halted => rw [runFor_of_halted 0 hrun]; exact hrun
    | faulted r => rw [runFor_of_faulted 0 hrun]; exact hrun
  | succ n ih =>
    cases hrun : s.run with
    | running =>
      rw [runFor_succ n hrun]
      cases step s with
      | next s' => exact ih s'
      | fault why => trivial
      | refused why => trivial
    | halted => rw [runFor_of_halted (n + 1) hrun]; exact hrun
    | faulted r => rw [runFor_of_faulted (n + 1) hrun]; exact hrun

/-- A run without a limit has one result at most: under the larger of two limits both are reached (R112). -/
theorem runsTo_unique {s : State} {r r' : CallerResult} (h : RunsTo s r) (h' : RunsTo s r') : r = r' := by
  obtain ⟨n, hn, hr⟩ := h
  obtain ⟨n', hn', hr'⟩ := h'
  exact (runFor_mono (Nat.le_max_left n n') hn hr).symm.trans (runFor_mono (Nat.le_max_right n n') hn' hr')

/-- Settles O60: by induction on the limit, and by the run under a larger one. -/
theorem callerStopsOnlyBetweenCycles : Obligations.CallerStopsOnlyBetweenCycles := by
  intro limit s t
  have hsound := runFor_sound limit s
  exact ⟨runFor_eq_stopped_iff limit s t, fun h => by rwa [h] at hsound, fun r h => by rwa [h] at hsound,
    fun _ _ => runsTo_unique⟩

end Sys2Proof.Machine
end
